-- ==== Sys2Proof/Word.lean ====
section
/-! DEFINITION. The word types of the core (00_scope.md R4, R14; 30_encoding.md R47): unsigned bit vectors of the
widths the spec states, and nothing else. -/

namespace Sys2Proof

/-- An 8-bit register, byte or immediate (R14). -/
abbrev Byte := BitVec 8

/-- A 16-bit cell: an instruction word, `I`, `pc` or a stack slot (R19, R20, R21, R46). -/
abbrev Word := BitVec 16

/-- A 4-bit field of an instruction word (R47): a register number, a count, or a fixed digit. -/
abbrev Nibble := BitVec 4

/-- The 12-bit address field `nnn` (R47). -/
abbrev Addr := BitVec 12

end Sys2Proof
end

