-- ==== Sys2Proof/Machine/Flags.lean ====
section
/-! DEFINITION. The exact results and the flag rules of the ALU (42_alu.md R80 to R84), on unbounded integers (00_scope.md
R14), and the narrowing to 8 bits. -/

namespace Sys2Proof.Machine

/-- `trunc_8` of a natural number. -/
def truncByte (n : Nat) : Byte := BitVec.ofNat 8 n

/-- `trunc_8` of an integer: two's-complement wrap (R81). -/
def truncByteInt (d : Int) : Byte := BitVec.ofInt 8 d

/-- `s <- a + b`, 0..510 (R80). -/
abbrev exactSum (a b : Byte) : Nat := a.toNat + b.toNat

/-- The carry: `s > 255` (R80). -/
def carryFlag (sum : Nat) : Bool := decide (255 < sum)

/-- `d <- a - b`, -255..255 (R81, R82). -/
abbrev exactDiff (a b : Byte) : Int := (a.toNat : Int) - (b.toNat : Int)

/-- The positive-difference flag: `d > 0` (R81, R82); a difference of 0 gives 0. -/
def positiveFlag (d : Int) : Bool := decide (0 < d)

/-- The bit a right shift drops: bit 0 of the operand (R83). -/
def shiftedOutRight (op : Byte) : Bool := op.getLsbD 0

/-- The bit a left shift drops: `op > 127` (R84). -/
def shiftedOutLeft (op : Byte) : Bool := decide (127 < op.toNat)

end Sys2Proof.Machine
end

