-- ==== Sys2Proof/Config.lean ====
section
/-! DEFINITION. What a configuration of the core fixes (00_scope.md R4 to R11, R129), and the free values: the
environment inputs of R12 and the draws of `RESET_FILL = DRAW`. The free values are opaque: nothing is known of them. -/

namespace Sys2Proof

/-- `SHIFT_SOURCE` (R5): which register `8xy6` and `8xyE` shift. -/
inductive ShiftSource where
  | vy
  | vx
  deriving DecidableEq, Repr

/-- `BCD_MODE` (R6): whether `Fx33` zero-pads. -/
inductive BcdMode where
  | literal
  | padded
  deriving DecidableEq, Repr

/-- `KEYPAD` (R8): whether the key-state provider is wired. -/
inductive Keypad where
  | absent
  | present
  deriving DecidableEq, Repr

/-- `FLAG_ALIAS` (R9): whether the flag register and `V[15]` are one cell. -/
inductive FlagAlias where
  | separate
  | vf
  deriving DecidableEq, Repr

/-- `STACK_DISCIPLINE` (R10): what `2nnn` pushes and what `00EE` reads. -/
inductive StackDiscipline where
  | documented
  | returnAddress
  deriving DecidableEq, Repr

/-- `RESET_FILL` (R129): what the cells hold at reset whose reset value the source does not state. -/
inductive ResetFill where
  | zero
  | draw
  deriving DecidableEq, Repr

/-- One configuration `SQCHIP8-CORE{...}` of the core (R1): the seven named parameters and `GLYPH_TABLE` (R11). -/
structure Config where
  shiftSource     : ShiftSource
  bcdMode         : BcdMode
  haltOnZero      : Bool
  keypad          : Keypad
  flagAlias       : FlagAlias
  stackDiscipline : StackDiscipline
  resetFill       : ResetFill
  glyphTable      : Vector Byte 80
  deriving DecidableEq, Repr

/-- The default `GLYPH_TABLE` (10_state.md R30), five bytes a digit, 0 to F. PRESUMED by the spec itself, which marks
the bytes as general knowledge (log 3; unsafe for a claim that rests on them). -/
def Config.defaultGlyphs : Vector Byte 80 :=
  #v[0xF0, 0x90, 0x90, 0x90, 0xF0,
     0x20, 0x60, 0x20, 0x20, 0x70,
     0xF0, 0x10, 0xF0, 0x80, 0xF0,
     0xF0, 0x10, 0xF0, 0x10, 0xF0,
     0x90, 0x90, 0xF0, 0x10, 0x10,
     0xF0, 0x80, 0xF0, 0x10, 0xF0,
     0xF0, 0x80, 0xF0, 0x90, 0xF0,
     0xF0, 0x10, 0x20, 0x40, 0x40,
     0xF0, 0x90, 0xF0, 0x90, 0xF0,
     0xF0, 0x90, 0xF0, 0x10, 0xF0,
     0xF0, 0x90, 0xF0, 0x90, 0x90,
     0xE0, 0x90, 0xE0, 0x90, 0xE0,
     0xF0, 0x80, 0x80, 0x80, 0xF0,
     0xE0, 0x90, 0x90, 0x90, 0xE0,
     0xF0, 0x80, 0xF0, 0x80, 0xF0,
     0xF0, 0x80, 0xF0, 0x80, 0x80]

/-- The default of every parameter (R5 to R11, R129). DESIGN CHOICE of the spec where the source leaves the point open
(log 2; unsafe for a claim that rests on a default, so statements are made for every configuration). -/
def Config.default : Config :=
  { shiftSource := .vy, bcdMode := .literal, haltOnZero := true, keypad := .absent, flagAlias := .separate,
    stackDiscipline := .documented, resetFill := .zero, glyphTable := Config.defaultGlyphs }

/-- FREE VALUE (R109, log 4): how far `now_ms` has moved on, at the k-th environment sample, since the sample before.
A natural number, so samples never decrease; nothing else is known of it. -/
opaque Config.timeAdvance : Nat → Nat

/-- FREE VALUE (R110, log 6): the byte `rand8` answers at the k-th environment sample. -/
opaque Config.randByte : Nat → Byte

/-- FREE VALUE (R111, log 7): whether the key of a 4-bit code is pressed, at the k-th environment sample. -/
opaque Config.keyPressed : Nat → Nibble → Bool

/-- FREE VALUE (R129, log 8): the byte a memory address holds at reset under `RESET_FILL = DRAW`. -/
opaque Config.fillMem : Nat → Byte

/-- FREE VALUE (R129, log 8): what `Vcell[k]` holds at reset under `RESET_FILL = DRAW`. -/
opaque Config.fillV : Nat → Byte

/-- FREE VALUE (R129, log 8): what `flag` holds at reset under `RESET_FILL = DRAW`. -/
opaque Config.fillFlag : Byte

/-- FREE VALUE (R129, log 8): what `stack[k]` holds at reset under `RESET_FILL = DRAW`. -/
opaque Config.fillStack : Nat → Word

/-- FREE VALUE (R129, log 8): what `DT` holds at reset under `RESET_FILL = DRAW`. -/
opaque Config.fillDT : Byte

/-- FREE VALUE (R129, log 8): what `ST` holds at reset under `RESET_FILL = DRAW`. -/
opaque Config.fillST : Byte

/-- FREE VALUE (R129, log 8): the 64 cells of one display row at reset under `RESET_FILL = DRAW`, a draw each. -/
opaque Config.fillRow : Nat → BitVec 64

end Sys2Proof
end

