-- ==== Sys2Proof/Syntax.lean ====
section
/-! DEFINITION. The instructions: one constructor per row of spec/opcode_table.json, in the table's order, with the
row's fields as arguments (30_encoding.md R47, R49, R50). -/

namespace Sys2Proof

/-- One instruction of the core. `x` and `y` are register numbers, `n` a row count, `nn` a byte, `nnn` an address. -/
inductive Instr where
  /-- `0000` HALT (R64) -/
  | halt
  /-- `00E0` CLS (R62) -/
  | cls
  /-- `00EE` RET (R65) -/
  | ret
  /-- `1nnn` JP addr (R66) -/
  | jpAddr (nnn : Addr)
  /-- `2nnn` CALL addr (R67) -/
  | callAddr (nnn : Addr)
  /-- `3xnn` SE Vx, byte (R68) -/
  | seVxByte (x : Nibble) (nn : Byte)
  /-- `4xnn` SNE Vx, byte (R69) -/
  | sneVxByte (x : Nibble) (nn : Byte)
  /-- `5xy0` SE Vx, Vy (R70) -/
  | seVxVy (x y : Nibble)
  /-- `6xnn` LD Vx, byte (R74) -/
  | ldVxByte (x : Nibble) (nn : Byte)
  /-- `7xnn` ADD Vx, byte (R75) -/
  | addVxByte (x : Nibble) (nn : Byte)
  /-- `8xy0` LD Vx, Vy (R76) -/
  | ldVxVy (x y : Nibble)
  /-- `8xy1` OR Vx, Vy (R77) -/
  | orVxVy (x y : Nibble)
  /-- `8xy2` AND Vx, Vy (R78) -/
  | andVxVy (x y : Nibble)
  /-- `8xy3` XOR Vx, Vy (R79) -/
  | xorVxVy (x y : Nibble)
  /-- `8xy4` ADD Vx, Vy (R80) -/
  | addVxVy (x y : Nibble)
  /-- `8xy5` SUB Vx, Vy (R81) -/
  | subVxVy (x y : Nibble)
  /-- `8xy6` SHR Vx, Vy (R83) -/
  | shrVxVy (x y : Nibble)
  /-- `8xy7` SUBN Vx, Vy (R82) -/
  | subnVxVy (x y : Nibble)
  /-- `8xyE` SHL Vx, Vy (R84) -/
  | shlVxVy (x y : Nibble)
  /-- `9xy0` SNE Vx, Vy (R71) -/
  | sneVxVy (x y : Nibble)
  /-- `Annn` LD I, addr (R86) -/
  | ldIAddr (nnn : Addr)
  /-- `Bnnn` JP V0, addr (R72) -/
  | jpV0Addr (nnn : Addr)
  /-- `Cxnn` RND Vx, byte (R85) -/
  | rndVxByte (x : Nibble) (nn : Byte)
  /-- `Dxyn` DRW Vx, Vy, nibble (R63) -/
  | drwVxVyNibble (x y n : Nibble)
  /-- `Ex9E` SKP Vx (R95) -/
  | skpVx (x : Nibble)
  /-- `ExA1` SKNP Vx (R96) -/
  | sknpVx (x : Nibble)
  /-- `Fx07` LD Vx, DT (R92) -/
  | ldVxDT (x : Nibble)
  /-- `Fx15` LD DT, Vx (R93) -/
  | ldDTVx (x : Nibble)
  /-- `Fx18` LD ST, Vx (R94) -/
  | ldSTVx (x : Nibble)
  /-- `Fx1E` ADD I, Vx (R87) -/
  | addIVx (x : Nibble)
  /-- `Fx29` LD F, Vx (R88) -/
  | ldFVx (x : Nibble)
  /-- `Fx33` LD B, Vx (R89) -/
  | ldBVx (x : Nibble)
  /-- `Fx55` LD [I], Vx (R90) -/
  | ldMemVx (x : Nibble)
  /-- `Fx65` LD Vx, [I] (R91) -/
  | ldVxMem (x : Nibble)
  deriving DecidableEq, Repr

end Sys2Proof
end

