-- ==== Sys2Proof/WellFormed.lean ====
section
/-! DEFINITION. Which instructions exist in a configuration. The operand fields are bit vectors of the fields' own
widths (30_encoding.md R47), so every operand is in range by its type; the one check left is that the halt row is in
the table only when `HALT_ON_ZERO = true` (R52, 41_control_flow.md R64). -/

namespace Sys2Proof

/-- The instruction is a row of this configuration's opcode table (R51, R52). -/
def Instr.wellFormed (cfg : Config) : Instr → Bool
  | .halt => cfg.haltOnZero
  | .cls | .ret | .jpAddr _ | .callAddr _ | .seVxByte _ _ | .sneVxByte _ _ | .seVxVy _ _ | .ldVxByte _ _
  | .addVxByte _ _ | .ldVxVy _ _ | .orVxVy _ _ | .andVxVy _ _ | .xorVxVy _ _ | .addVxVy _ _ | .subVxVy _ _
  | .shrVxVy _ _ | .subnVxVy _ _ | .shlVxVy _ _ | .sneVxVy _ _ | .ldIAddr _ | .jpV0Addr _ | .rndVxByte _ _
  | .drwVxVyNibble _ _ _ | .skpVx _ | .sknpVx _ | .ldVxDT _ | .ldDTVx _ | .ldSTVx _ | .addIVx _ | .ldFVx _
  | .ldBVx _ | .ldMemVx _ | .ldVxMem _ => true

end Sys2Proof
end

