-- ==== Sys2Proof/Decode.lean ====
section
/-! DEFINITION. Decoding and encoding (30_encoding.md R46 to R55): bytes to nibbles to instruction, and back. The
decoder is total; a word outside the opcode map is rejected by name. -/

namespace Sys2Proof

/-- Why bytes are no instruction. -/
inductive DecodeError where
  /-- fewer than two bytes: no word to decode (R46) -/
  | truncated
  /-- the word matches no row of the opcode table (R55) -/
  | unknownOpcode (w : Word)
  deriving DecidableEq, Repr

/-- The word of two bytes, the byte at the lower address the high one (20_memory.md R36, R46; log 15). -/
def wordOfBytes (hi lo : Byte) : Word := hi ++ lo

/-- The byte of a word at the lower address (R36). -/
def highByte (w : Word) : Byte := w.extractLsb' 8 8

/-- The byte of a word at the higher address (R36). -/
def lowByte (w : Word) : Byte := w.extractLsb' 0 8

/-- `decode(high_byte, low_byte) -> (n0, n1, n2, n3)` (R48): pure, total, no failure. -/
def nibblesOf (hi lo : Byte) : Nibble × Nibble × Nibble × Nibble :=
  (hi.extractLsb' 4 4, hi.extractLsb' 0 4, lo.extractLsb' 4 4, lo.extractLsb' 0 4)

/-- The rows with top nibble 0 (R51): `0000` only when `HALT_ON_ZERO = true`, `00E0` and `00EE`. -/
def decodeRow0 (haltOnZero : Bool) (n1 n2 n3 : Nibble) : Option Instr :=
  if n1 = 0x0 then
    if n2 = 0x0 then (if n3 = 0x0 ∧ haltOnZero = true then some .halt else none)
    else if n2 = 0xE then
      if n3 = 0x0 then some .cls else if n3 = 0xE then some .ret else none
    else none
  else none

/-- The rows with top nibble 8 (R51), by the last nibble; 8 to D and F are unknown. -/
def decodeRow8 (x y n3 : Nibble) : Option Instr :=
  if n3 = 0x0 then some (.ldVxVy x y)
  else if n3 = 0x1 then some (.orVxVy x y)
  else if n3 = 0x2 then some (.andVxVy x y)
  else if n3 = 0x3 then some (.xorVxVy x y)
  else if n3 = 0x4 then some (.addVxVy x y)
  else if n3 = 0x5 then some (.subVxVy x y)
  else if n3 = 0x6 then some (.shrVxVy x y)
  else if n3 = 0x7 then some (.subnVxVy x y)
  else if n3 = 0xE then some (.shlVxVy x y)
  else none

/-- The rows with top nibble E (R51), by the low byte. -/
def decodeRowE (x : Nibble) (low : Byte) : Option Instr :=
  if low = 0x9E then some (.skpVx x)
  else if low = 0xA1 then some (.sknpVx x)
  else none

/-- The rows with top nibble F (R51), by the low byte. -/
def decodeRowF (x : Nibble) (low : Byte) : Option Instr :=
  if low = 0x07 then some (.ldVxDT x)
  else if low = 0x15 then some (.ldDTVx x)
  else if low = 0x18 then some (.ldSTVx x)
  else if low = 0x1E then some (.addIVx x)
  else if low = 0x29 then some (.ldFVx x)
  else if low = 0x33 then some (.ldBVx x)
  else if low = 0x55 then some (.ldMemVx x)
  else if low = 0x65 then some (.ldVxMem x)
  else none

/-- The opcode map (R51) on the four nibbles, with `nn = n2 : n3` and `nnn = n1 : n2 : n3` (R47). `none` is an unknown
word (R53, R55). -/
def decodeNibbles (haltOnZero : Bool) (n0 n1 n2 n3 : Nibble) : Option Instr :=
  let nn : Byte := n2 ++ n3
  let nnn : Addr := n1 ++ n2 ++ n3
  if n0 = 0x0 then decodeRow0 haltOnZero n1 n2 n3
  else if n0 = 0x1 then some (.jpAddr nnn)
  else if n0 = 0x2 then some (.callAddr nnn)
  else if n0 = 0x3 then some (.seVxByte n1 nn)
  else if n0 = 0x4 then some (.sneVxByte n1 nn)
  else if n0 = 0x5 then (if n3 = 0x0 then some (.seVxVy n1 n2) else none)
  else if n0 = 0x6 then some (.ldVxByte n1 nn)
  else if n0 = 0x7 then some (.addVxByte n1 nn)
  else if n0 = 0x8 then decodeRow8 n1 n2 n3
  else if n0 = 0x9 then (if n3 = 0x0 then some (.sneVxVy n1 n2) else none)
  else if n0 = 0xA then some (.ldIAddr nnn)
  else if n0 = 0xB then some (.jpV0Addr nnn)
  else if n0 = 0xC then some (.rndVxByte n1 nn)
  else if n0 = 0xD then some (.drwVxVyNibble n1 n2 n3)
  else if n0 = 0xE then decodeRowE n1 nn
  else decodeRowF n1 nn

/-- One word to its instruction (R46 to R53), in a configuration with this `HALT_ON_ZERO`. -/
def decodeWord (haltOnZero : Bool) (w : Word) : Option Instr :=
  match nibblesOf (highByte w) (lowByte w) with
  | (n0, n1, n2, n3) => decodeNibbles haltOnZero n0 n1 n2 n3

/-- Bytes to an instruction and the bytes after it, or the reason why not. -/
def decode (cfg : Config) : List Byte → Except DecodeError (Instr × List Byte)
  | hi :: lo :: rest =>
    match decodeWord cfg.haltOnZero (wordOfBytes hi lo) with
    | some i => .ok (i, rest)
    | none => .error (.unknownOpcode (wordOfBytes hi lo))
  | [_] => .error .truncated
  | [] => .error .truncated

/-- The word of an instruction, from the layouts of R49 and the opcode map (R51). -/
def encode : Instr → Word
  | .halt => 0x0000#16
  | .cls => 0x00E0#16
  | .ret => 0x00EE#16
  | .jpAddr nnn => 0x1#4 ++ nnn
  | .callAddr nnn => 0x2#4 ++ nnn
  | .seVxByte x nn => 0x3#4 ++ x ++ nn
  | .sneVxByte x nn => 0x4#4 ++ x ++ nn
  | .seVxVy x y => 0x5#4 ++ x ++ y ++ 0x0#4
  | .ldVxByte x nn => 0x6#4 ++ x ++ nn
  | .addVxByte x nn => 0x7#4 ++ x ++ nn
  | .ldVxVy x y => 0x8#4 ++ x ++ y ++ 0x0#4
  | .orVxVy x y => 0x8#4 ++ x ++ y ++ 0x1#4
  | .andVxVy x y => 0x8#4 ++ x ++ y ++ 0x2#4
  | .xorVxVy x y => 0x8#4 ++ x ++ y ++ 0x3#4
  | .addVxVy x y => 0x8#4 ++ x ++ y ++ 0x4#4
  | .subVxVy x y => 0x8#4 ++ x ++ y ++ 0x5#4
  | .shrVxVy x y => 0x8#4 ++ x ++ y ++ 0x6#4
  | .subnVxVy x y => 0x8#4 ++ x ++ y ++ 0x7#4
  | .shlVxVy x y => 0x8#4 ++ x ++ y ++ 0xE#4
  | .sneVxVy x y => 0x9#4 ++ x ++ y ++ 0x0#4
  | .ldIAddr nnn => 0xA#4 ++ nnn
  | .jpV0Addr nnn => 0xB#4 ++ nnn
  | .rndVxByte x nn => 0xC#4 ++ x ++ nn
  | .drwVxVyNibble x y n => 0xD#4 ++ x ++ y ++ n
  | .skpVx x => 0xE#4 ++ x ++ 0x9E#8
  | .sknpVx x => 0xE#4 ++ x ++ 0xA1#8
  | .ldVxDT x => 0xF#4 ++ x ++ 0x07#8
  | .ldDTVx x => 0xF#4 ++ x ++ 0x15#8
  | .ldSTVx x => 0xF#4 ++ x ++ 0x18#8
  | .addIVx x => 0xF#4 ++ x ++ 0x1E#8
  | .ldFVx x => 0xF#4 ++ x ++ 0x29#8
  | .ldBVx x => 0xF#4 ++ x ++ 0x33#8
  | .ldMemVx x => 0xF#4 ++ x ++ 0x55#8
  | .ldVxMem x => 0xF#4 ++ x ++ 0x65#8

/-- The `mask` of the instruction's row of opcode_table.json (R52): the bits its pattern fixes. -/
def rowMask : Instr → Word
  | .halt | .cls | .ret => 0xFFFF
  | .jpAddr _ | .callAddr _ | .ldIAddr _ | .jpV0Addr _ => 0xF000
  | .seVxByte _ _ | .sneVxByte _ _ | .ldVxByte _ _ | .addVxByte _ _ | .rndVxByte _ _ => 0xF000
  | .drwVxVyNibble _ _ _ => 0xF000
  | .seVxVy _ _ | .sneVxVy _ _ | .ldVxVy _ _ | .orVxVy _ _ | .andVxVy _ _ | .xorVxVy _ _ | .addVxVy _ _
  | .subVxVy _ _ | .shrVxVy _ _ | .subnVxVy _ _ | .shlVxVy _ _ => 0xF00F
  | .skpVx _ | .sknpVx _ | .ldVxDT _ | .ldDTVx _ | .ldSTVx _ | .addIVx _ | .ldFVx _ | .ldBVx _ | .ldMemVx _
  | .ldVxMem _ => 0xF0FF

/-- The `match` of the instruction's row of opcode_table.json (R52): the values of those bits. -/
def rowMatch : Instr → Word
  | .halt => 0x0000
  | .cls => 0x00E0
  | .ret => 0x00EE
  | .jpAddr _ => 0x1000
  | .callAddr _ => 0x2000
  | .seVxByte _ _ => 0x3000
  | .sneVxByte _ _ => 0x4000
  | .seVxVy _ _ => 0x5000
  | .ldVxByte _ _ => 0x6000
  | .addVxByte _ _ => 0x7000
  | .ldVxVy _ _ => 0x8000
  | .orVxVy _ _ => 0x8001
  | .andVxVy _ _ => 0x8002
  | .xorVxVy _ _ => 0x8003
  | .addVxVy _ _ => 0x8004
  | .subVxVy _ _ => 0x8005
  | .shrVxVy _ _ => 0x8006
  | .subnVxVy _ _ => 0x8007
  | .shlVxVy _ _ => 0x800E
  | .sneVxVy _ _ => 0x9000
  | .ldIAddr _ => 0xA000
  | .jpV0Addr _ => 0xB000
  | .rndVxByte _ _ => 0xC000
  | .drwVxVyNibble _ _ _ => 0xD000
  | .skpVx _ => 0xE09E
  | .sknpVx _ => 0xE0A1
  | .ldVxDT _ => 0xF007
  | .ldDTVx _ => 0xF015
  | .ldSTVx _ => 0xF018
  | .addIVx _ => 0xF01E
  | .ldFVx _ => 0xF029
  | .ldBVx _ => 0xF033
  | .ldMemVx _ => 0xF055
  | .ldVxMem _ => 0xF065

/-- The 16-bit word the opcode table's numbering gives: bits at and above `nbits` are 0. -/
def tableWord (nbits w : Nat) : Word := BitVec.ofNat 16 (w % 2 ^ nbits)

/-- What the decoder reads from the table's word `w` of `nbits` bits, laid out as the core stores it (high byte first,
R36), in the default configuration. -/
def decodeTableWord (nbits w : Nat) : Option Instr :=
  match decode Config.default [highByte (tableWord nbits w), lowByte (tableWord nbits w)] with
  | .ok (i, _) => some i
  | .error _ => none

end Sys2Proof
end

