-- ==== Sys2Proof/Machine/FaultRecord.lean ====
section
/-! DEFINITION. The fatal errors and the fault record (60_exceptions.md R98, R99; 10_state.md R28). -/

namespace Sys2Proof.Machine

/-- The kinds of fatal error (R99). -/
inductive FaultKind where
  | unknownOpcode
  | unimplementedOpcode
  | stackOverflow
  | stackUnderflow
  | memoryOutOfBounds
  | programTooLarge
  | displayOutOfBounds
  | undefinedOperand
  deriving DecidableEq, Repr

/-- The numeric code of a kind (R99). Code 0 is the clean halt and code 3 the host's own: no kind has them. -/
def faultCode : FaultKind → Nat
  | .unknownOpcode => 1
  | .unimplementedOpcode => 1
  | .stackOverflow => 2
  | .stackUnderflow => 2
  | .memoryOutOfBounds => 4
  | .programTooLarge => 5
  | .displayOutOfBounds => 6
  | .undefinedOperand => 7

/-- The fault record (R98). `ia`, `word`, `addr` and `size` are empty where R98 and R99 leave them empty. -/
structure FaultRecord where
  kind : FaultKind
  code : Nat
  ia   : Option Word
  word : Option Word
  addr : Option Nat
  size : Option Nat
  deriving DecidableEq, Repr

/-- The record a raise of a kind fills in (R98): its code goes with its kind. -/
def faultRecord (kind : FaultKind) (ia word : Option Word) (addr size : Option Nat) : FaultRecord :=
  { kind := kind, code := faultCode kind, ia := ia, word := word, addr := addr, size := size }

end Sys2Proof.Machine
end

