-- ==== Sys2Proof/Machine/Memory.lean ====
section
/-! DEFINITION. The memory store (10_state.md R26, 20_memory.md R32 to R41): 4096 bytes kept as a list of address and
byte pairs in one canonical form, over a background that says what an unlisted address reads as. -/

namespace Sys2Proof.Machine

/-- MEM_SIZE (00_scope.md R4). -/
abbrev memSize : Nat := 4096

/-- GLYPH_BASE (R4). -/
abbrev glyphBase : Nat := 0x050

/-- PROGRAM_BASE (R4). -/
abbrev programBase : Nat := 0x200

/-- MAX_PROGRAM (R4): `4096 - 0x200`. -/
abbrev maxProgram : Nat := 3584

/-- What an address that nothing has written reads as: the glyph table at 0x050..0x09F, else 0x00 (10_state.md R29,
20_memory.md R34; log 8, log 9). -/
def Memory.background (cfg : Config) (a : Nat) : Byte :=
  if h : glyphBase ≤ a ∧ a < glyphBase + 80 then
    cfg.glyphTable[a - glyphBase]'(by have := h.2; have := h.1; omega)
  else 0x00

/-- The byte at an address: the listed one, or the background's. -/
def Memory.read (bg : Nat → Byte) : List Host.Cell → Nat → Byte
  | [], a => bg a
  | (k, v) :: rest, a => if a = k then v else Memory.read bg rest a

/-- Write one byte and keep the canonical form: addresses rising, no entry equal to the background. -/
def Memory.write (bg : Nat → Byte) : List Host.Cell → Nat → Byte → List Host.Cell
  | [], a, b => if b = bg a then [] else [(a, b)]
  | (k, v) :: rest, a, b =>
    if a < k then (if b = bg a then (k, v) :: rest else (a, b) :: (k, v) :: rest)
    else if a = k then (if b = bg a then rest else (a, b) :: rest)
    else (k, v) :: Memory.write bg rest a b

/-- Write consecutive bytes from an address upward, in order (20_memory.md R38). -/
def Memory.writeList (bg : Nat → Byte) : List Host.Cell → Nat → List Byte → List Host.Cell
  | m, _, [] => m
  | m, a, b :: bs => Memory.writeList bg (Memory.write bg m a b) (a + 1) bs

/-- Read `n` consecutive bytes from an address upward. -/
def Memory.readList (bg : Nat → Byte) (m : List Host.Cell) : Nat → Nat → List Byte
  | _, 0 => []
  | a, n + 1 => Memory.read bg m a :: Memory.readList bg m (a + 1) n

/-- The canonical form: addresses exist and strictly rise, and no entry equals what an unlisted address reads as. -/
def Memory.wf (bg : Nat → Byte) : List Host.Cell → Bool
  | [] => true
  | (a, b) :: rest => decide (a < memSize) && decide (b ≠ bg a) && rest.all (fun c => decide (a < c.1)) && Memory.wf bg rest

/-- The bound check (R39): the bytes `a .. a+n-1` all exist, on unbounded naturals; `n = 0` touches nothing. -/
def inBounds (a n : Nat) : Bool := n = 0 ∨ a + n - 1 ≤ 0xFFF

/-- The draws of `RESET_FILL = DRAW` for the memory outside the glyph table (00_scope.md R129, 10_state.md R29), at the
addresses below `n`. -/
def Memory.drawn (bg : Nat → Byte) : Nat → List Host.Cell
  | 0 => []
  | n + 1 =>
    if glyphBase ≤ n ∧ n < glyphBase + 80 then Memory.drawn bg n
    else Memory.write bg (Memory.drawn bg n) n (Config.fillMem n)

/-- Memory after steps 1 and 2 of reset (70_reset_and_hazards.md R118): the fill, and the glyph table. -/
def Memory.afterFill (cfg : Config) : List Host.Cell :=
  match cfg.resetFill with
  | .zero => []
  | .draw => Memory.drawn (Memory.background cfg) memSize

/-- Memory after step 3 of reset (R118, R119): a program that fits is copied to 0x200, a longer one is not. -/
def Memory.afterLoad (cfg : Config) (program : List Byte) : List Host.Cell :=
  if program.length ≤ maxProgram then
    Memory.writeList (Memory.background cfg) (Memory.afterFill cfg) programBase program
  else Memory.afterFill cfg

end Sys2Proof.Machine
end

