-- ==== Sys2Proof/Machine/State.lean ====
section
/-! DEFINITION. The machine state: every piece of state of 10_state.md, and the few fields the model adds to carry the
configuration, the environment draws and the redraw events. Reset is the host operation of 70_reset_and_hazards.md. -/

namespace Sys2Proof.Machine

/-- The run status (10_state.md R27). -/
inductive RunStatus where
  | running
  | halted
  | faulted
  deriving DecidableEq, Repr

/-- The pixel buffer's cells (R25), 32 rows of 64: `Pix[r*64 + c]` is bit `c` of row `r` (log 10). -/
abbrev Pixels := Vector (BitVec 64) 32

structure State where
  /-- the parameters of the run (00_scope.md R5 to R11, R129); the model's own field, never written (log 1) -/
  cfg     : Config
  /-- `Vcell[0..15]` (R15, R17) -/
  vcell   : Vector Byte 16
  /-- the flag register (R16, R17) -/
  flag    : Byte
  /-- the index register `I` (R19) -/
  index   : Word
  /-- the program counter (R20) -/
  pc      : Word
  /-- `stack[0..15]` (R21) -/
  stack   : Vector Word 16
  /-- the stack pointer, 0..15 (R22) -/
  sp      : Fin 16
  /-- the delay timer `DT` (R23) -/
  dt      : Byte
  /-- `tDT`, the time of its last write, in milliseconds (R23) -/
  tdt     : Nat
  /-- the sound timer `ST` (R24) -/
  st      : Byte
  /-- `tST`, the time of its last write, in milliseconds (R24) -/
  tst     : Nat
  /-- the pixel buffer (R25) -/
  pix     : Pixels
  /-- the bytes of memory that differ from the background (R26; Machine/Memory.lean) -/
  mem     : List Host.Cell
  /-- the run status (R27) -/
  status  : RunStatus
  /-- the fault record, empty unless FAULTED (R28) -/
  fault   : Option FaultRecord
  /-- the latest sample of `now_ms` (60_exceptions.md R109); the model's own field (log 4) -/
  clock   : Nat
  /-- how many environment samples have been drawn (R109 to R111); the model's own field (log 6) -/
  draws   : Nat
  /-- how many redraw events have been emitted since reset (R112); the model's own field (log 14) -/
  redraws : Nat
  deriving DecidableEq, Repr

/-- Reasons for the MODEL to stop with a fault. There is none: every fatal error of the core is a state the spec
describes (R98) and is taken as a next state (log 11), so nothing raises a fault here. -/
inductive Fault where
  deriving DecidableEq, Repr

/-- Reasons for the model to refuse an instruction. -/
inductive Refusal where
  /-- raised by exec's arm of an instruction that has no meaning yet; safe: it stops where the core goes on. No arm
  raises it any more. -/
  | notModelled (mnemonic : String)
  deriving DecidableEq, Repr

/-- What a meaning answers. -/
abbrev Result := Host.Outcome State Fault Refusal

/-- `reset(program, t0)` in a configuration (60_exceptions.md R108; 70_reset_and_hazards.md R118 to R122; the values of
10_state.md R29). -/
def State.resetWith (cfg : Config) (program : List Byte) (t0 : Nat) : State :=
  let draw := decide (cfg.resetFill = .draw)
  let fits := decide (program.length ≤ maxProgram)
  { cfg := cfg
    vcell := if draw then Vector.ofFn (fun k => Config.fillV k.val) else Vector.replicate 16 0
    flag := if draw then Config.fillFlag else 0
    index := 0x0200
    pc := 0x0200
    stack := if draw then Vector.ofFn (fun k => Config.fillStack k.val) else Vector.replicate 16 0
    sp := 0
    dt := if draw then Config.fillDT else 0
    tdt := t0
    st := if draw then Config.fillST else 0
    tst := t0
    pix := if draw then Vector.ofFn (fun r => Config.fillRow r.val) else Vector.replicate 32 0
    mem := Memory.afterLoad cfg program
    status := if fits then .running else .faulted
    fault := if fits then none else some (faultRecord .programTooLarge none none none (some program.length))
    clock := t0
    draws := 0
    redraws := 0 }

/-- The machine right after reset: the default configuration, no program, and the time sample 0 (log 5, log 17). -/
def State.reset : State := State.resetWith Config.default [] 0

end Sys2Proof.Machine
end

