-- ==== Sys2Proof/Machine/Ops.lean ====
section
/-! DEFINITION. The named operations over registers, memory and pixels, the environment samples, raising a fatal error
(the core's one exception entry; there is no return from it, 60_exceptions.md R114), and the parts of the dispatch
cycle (30_encoding.md R57 to R61). -/

namespace Sys2Proof.Machine

/-! ### Registers -/

/-- Register 15 and the flag are one cell, and this is it (10_state.md R17). -/
def State.isFlagCell (s : State) (x : Nibble) : Bool := s.cfg.flagAlias = .vf ∧ x = 15

/-- Read `V[x]` (R17). -/
def State.getV (s : State) (x : Nibble) : Byte :=
  if s.isFlagCell x then s.flag else s.vcell[x.toNat]'x.isLt

/-- Write `V[x]` (R17). -/
def State.setV (s : State) (x : Nibble) (v : Byte) : State :=
  if s.isFlagCell x then { s with flag := v }
  else { s with vcell := s.vcell.set x.toNat v x.isLt }

/-- Write the flag register as a flag: 0 or 1 (R16). -/
def State.setFlag (s : State) (b : Bool) : State := { s with flag := if b then 1 else 0 }

/-- Write the flag first and `V[x]` second (R18, 42_alu.md R73). -/
def State.setFlagThenV (s : State) (x : Nibble) (b : Bool) (v : Byte) : State := (s.setFlag b).setV x v

/-- Write `V[j], V[j+1], …` in order, from a list of bytes (43_index_memory.md R91). -/
def State.setVs (s : State) (j : Nat) : List Byte → State
  | [] => s
  | b :: bs => State.setVs (s.setV (BitVec.ofNat 4 j) b) (j + 1) bs

/-- `V[0]..V[x]`, in order (43_index_memory.md R90). -/
def State.getVs (s : State) (x : Nibble) : List Byte :=
  (List.range (x.toNat + 1)).map (fun j => s.getV (BitVec.ofNat 4 j))

/-! ### Memory -/

/-- The byte at an address (20_memory.md R41). -/
def State.readByte (s : State) (a : Nat) : Byte := Memory.read (Memory.background s.cfg) s.mem a

/-- The `n` bytes from `a`, or nothing where one of them does not exist (R39). -/
def State.loadBytes (s : State) (a n : Nat) : Option (List Byte) :=
  if inBounds a n then some (Memory.readList (Memory.background s.cfg) s.mem a n) else none

/-- Store bytes from `a` upward, or nothing where one of the addresses does not exist (R39, R40). -/
def State.storeBytes (s : State) (a : Nat) (bs : List Byte) : Option State :=
  if inBounds a bs.length then
    some { s with mem := Memory.writeList (Memory.background s.cfg) s.mem a bs }
  else none

/-! ### Pixels -/

/-- `Pix[p]` (10_state.md R25). -/
def pixelAt (px : Pixels) (p : Nat) : Bool :=
  if h : p / 64 < 32 then (px[p / 64]'h).getLsbD (p % 64) else false

/-- One row with the cell of column `c` set to `b`. -/
def rowWithCell (row : BitVec 64) (c : Nat) (b : Bool) : BitVec 64 :=
  if b then row ||| BitVec.twoPow 64 c else row &&& ~~~(BitVec.twoPow 64 c)

/-- `Pix[p] <- b`. -/
def setPixel (px : Pixels) (p : Nat) (b : Bool) : Pixels :=
  if h : p / 64 < 32 then px.set (p / 64) (rowWithCell (px[p / 64]'h) (p % 64) b) h else px

/-- One processed cell of a sprite (40_display.md R63): overwrite, and a 1 meeting a 1 clears the cell and is a
collision. -/
def drawCell (p : Nat) (bit : Bool) (d : Pixels × Bool) : Pixels × Bool :=
  if pixelAt d.1 p && bit then (setPixel d.1 p false, true) else (setPixel d.1 p bit, d.2)

/-- The bits of a sprite byte, most significant first (R63). -/
def spriteBits (b : Byte) : List Bool :=
  [b.getLsbD 7, b.getLsbD 6, b.getLsbD 5, b.getLsbD 4, b.getLsbD 3, b.getLsbD 2, b.getLsbD 1, b.getLsbD 0]

/-- The bits of one sprite row from a column on, stopping where the next column would be a multiple of 64 (R63). -/
def drawRow (row : Nat) : Nat → List Bool → Pixels × Bool → Pixels × Bool
  | _, [], d => d
  | col, bit :: bits, d =>
    if (col + 1) % 64 = 0 then drawCell (row * 64 + col) bit d
    else drawRow row (col + 1) bits (drawCell (row * 64 + col) bit d)

/-- The rows of a sprite, each from the same start column (R63). -/
def drawRows (cx : Nat) : Nat → List Byte → Pixels × Bool → Pixels × Bool
  | _, [], d => d
  | row, b :: bs, d => drawRows cx (row + 1) bs (drawRow row cx (spriteBits b) d)

/-! ### Environment samples (00_scope.md R12): one draw each -/

/-- The next sample of `now_ms` (60_exceptions.md R109): no earlier than any before it. -/
def State.nowSample (s : State) : Nat := s.clock + Config.timeAdvance s.draws

/-- The state once the time has been sampled. -/
def State.tookTime (s : State) : State := { s with clock := s.nowSample, draws := s.draws + 1 }

/-- The next sample of `rand8` (R110). -/
def State.randSample (s : State) : Byte := Config.randByte s.draws

/-- The next answer of the key-state provider for a code (R111). -/
def State.keySample (s : State) (k : Nibble) : Bool := Config.keyPressed s.draws k

/-- The state once `rand8` or a key has been sampled. -/
def State.tookDraw (s : State) : State := { s with draws := s.draws + 1 }

/-! ### Fatal errors -/

/-- Raise a kind of fatal error (60_exceptions.md R98): status and record, nothing else (R107). -/
def State.raise (s : State) (kind : FaultKind) (ia word : Option Word) (addr size : Option Nat) : State :=
  { s with status := .faulted, fault := some (faultRecord kind ia word addr size) }

/-- The address of the instruction that is executing, whose rule sees `pc = ia + 2` (30_encoding.md R58; log 12). -/
def State.instrAddr (s : State) : Word := s.pc - 2

/-- Raise from an instruction's rule: the record holds its address and its word (R98; log 12). -/
def raiseAt (i : Instr) (kind : FaultKind) (addr size : Option Nat) (s : State) : Result :=
  .next (s.raise kind (some s.instrAddr) (some (encode i)) addr size)

/-! ### The program counter -/

/-- `pc <- trunc_16(pc + 2)`: the advance of R58, and a skip (41_control_flow.md R68). -/
def State.advance (s : State) : State := { s with pc := s.pc + 2 }

/-- Skip the next word if the test holds. -/
def State.skipIf (s : State) (test : Bool) : State := if test then s.advance else s

/-! ### The dispatch cycle -/

/-- The word at `pc` (R58, 20_memory.md R36), or nothing where its two bytes do not both exist (R39). -/
def State.fetchWord (s : State) : Option Word :=
  match s.loadBytes s.pc.toNat 2 with
  | some [hi, lo] => some (wordOfBytes hi lo)
  | _ => none

/-- The fetch fault (R58, 60_exceptions.md R103): pc is not advanced and the word is empty. -/
def State.raiseFetch (s : State) : State :=
  s.raise .memoryOutOfBounds (some s.pc) none (some s.pc.toNat) (some 2)

/-- The dispatcher's UNKNOWN_OPCODE (R59, R100), after the advance. -/
def State.raiseUnknown (s : State) (w : Word) : State :=
  s.raise .unknownOpcode (some s.instrAddr) (some w) none none

/-- Emit the redraw event (R61, R112; log 14). -/
def State.emitRedraw (s : State) : State := { s with redraws := s.redraws + 1 }

/-- The end of a step (R61): a redraw event exactly when the rule completed, so not after a halt or a fatal error. -/
def finishStep : Result → Result
  | .next s => .next (if s.status = .running then s.emitRedraw else s)
  | .fault f => .fault f
  | .refused r => .refused r

/-- The two bytes of a word stored where the next fetch reads, high byte first; nothing where they do not exist. -/
def State.placeWord (s : State) (w : Word) : State :=
  match s.storeBytes s.pc.toNat [highByte w, lowByte w] with
  | some s' => s'
  | none => s

end Sys2Proof.Machine
end

