-- ==== Sys2Proof/Machine/Operands.lean ====
section
/-! DEFINITION. The operand forms: immediates zero-extended (30_encoding.md R50), the shift operand, the glyph address,
the decimal digits, the start coordinates of a sprite. -/

namespace Sys2Proof.Machine

/-- `zext_16(nnn)` (R50). -/
def addrWord (nnn : Addr) : Word := nnn.setWidth 16

/-- `zext_16` of a register's byte (41_control_flow.md R72, 43_index_memory.md R87). -/
def byteWord (b : Byte) : Word := b.setWidth 16

/-- The operand of `8xy6` and `8xyE`: `V[y]` or `V[x]` by `SHIFT_SOURCE` (42_alu.md R83). -/
def State.shiftOperand (s : State) (x y : Nibble) : Byte :=
  match s.cfg.shiftSource with
  | .vy => s.getV y
  | .vx => s.getV x

/-- `0x050 + 5 * d` (43_index_memory.md R88). -/
def glyphAddress (d : Byte) : Word := BitVec.ofNat 16 (glyphBase + 5 * d.toNat)

/-- The digits `Fx33` stores, most significant first, as values 0..9 (43_index_memory.md R89). -/
def decimalDigits (mode : BcdMode) (v : Byte) : List Byte :=
  let n := v.toNat
  let hundreds := BitVec.ofNat 8 (n / 100)
  let tens := BitVec.ofNat 8 (n / 10 % 10)
  let units := BitVec.ofNat 8 (n % 10)
  match mode with
  | .literal => if n < 10 then [units] else if n < 100 then [tens, units] else [hundreds, tens, units]
  | .padded => [hundreds, tens, units]

/-- `V[x] mod 64`, the start column of a sprite (40_display.md R63). -/
abbrev State.startColumn (s : State) (x : Nibble) : Nat := (s.getV x).toNat % 64

/-- `V[y] mod 32`, the start row of a sprite (R63). -/
abbrev State.startRow (s : State) (y : Nibble) : Nat := (s.getV y).toNat % 32

/-- A register's value as a 4-bit key code or hexadecimal digit, where it is one (R88, 45_input.md R95). -/
def nibbleOf (v : Byte) : Option Nibble := if v.toNat ≤ 0xF then some (v.setWidth 4) else none

end Sys2Proof.Machine
end

