-- ==== Sys2Proof/Machine/Alu.lean ====
section
/-! DEFINITION. The ALU family (42_alu.md). Operands are read before any write, the flag is written before `V[x]` (R73). -/

namespace Sys2Proof.Machine

/-- `6xnn` LD Vx, byte (R74). -/
def execLdVxByte (x : Nibble) (nn : Byte) (s : State) : Result := .next (s.setV x nn)

/-- `7xnn` ADD Vx, byte (R75): no flag. -/
def execAddVxByte (x : Nibble) (nn : Byte) (s : State) : Result :=
  .next (s.setV x (truncByte (exactSum (s.getV x) nn)))

/-- `8xy0` LD Vx, Vy (R76). -/
def execLdVxVy (x y : Nibble) (s : State) : Result := .next (s.setV x (s.getV y))

/-- `8xy1` OR Vx, Vy (R77): the flag is unchanged. -/
def execOrVxVy (x y : Nibble) (s : State) : Result := .next (s.setV x (s.getV x ||| s.getV y))

/-- `8xy2` AND Vx, Vy (R78): the flag is unchanged. -/
def execAndVxVy (x y : Nibble) (s : State) : Result := .next (s.setV x (s.getV x &&& s.getV y))

/-- `8xy3` XOR Vx, Vy (R79): the flag is unchanged. -/
def execXorVxVy (x y : Nibble) (s : State) : Result := .next (s.setV x (s.getV x ^^^ s.getV y))

/-- `8xy4` ADD Vx, Vy (R80): the carry into the flag. -/
def execAddVxVy (x y : Nibble) (s : State) : Result :=
  let sum := exactSum (s.getV x) (s.getV y)
  .next (s.setFlagThenV x (carryFlag sum) (truncByte sum))

/-- `8xy5` SUB Vx, Vy (R81): `V[x] - V[y]`. -/
def execSubVxVy (x y : Nibble) (s : State) : Result :=
  let diff := exactDiff (s.getV x) (s.getV y)
  .next (s.setFlagThenV x (positiveFlag diff) (truncByteInt diff))

/-- `8xy7` SUBN Vx, Vy (R82): `V[y] - V[x]`. -/
def execSubnVxVy (x y : Nibble) (s : State) : Result :=
  let diff := exactDiff (s.getV y) (s.getV x)
  .next (s.setFlagThenV x (positiveFlag diff) (truncByteInt diff))

/-- `8xy6` SHR Vx, Vy (R83). -/
def execShrVxVy (x y : Nibble) (s : State) : Result :=
  let op := s.shiftOperand x y
  .next (s.setFlagThenV x (shiftedOutRight op) (op >>> 1))

/-- `8xyE` SHL Vx, Vy (R84). -/
def execShlVxVy (x y : Nibble) (s : State) : Result :=
  let op := s.shiftOperand x y
  .next (s.setFlagThenV x (shiftedOutLeft op) (op <<< 1))

/-- `Cxnn` with the byte `rand8` answered given (R85). -/
def State.storeRandom (s : State) (r : Byte) (x : Nibble) (nn : Byte) : State := s.setV x (r &&& nn)

/-- `Cxnn` RND Vx, byte (R85): one draw of `rand8`. -/
def execRndVxByte (x : Nibble) (nn : Byte) (s : State) : Result :=
  .next (s.tookDraw.storeRandom s.randSample x nn)

end Sys2Proof.Machine
end

