-- ==== Sys2Proof/Machine/ControlFlow.lean ====
section
/-! DEFINITION. The control-flow family (41_control_flow.md). Every rule sees `pc = ia + 2` (30_encoding.md R58). -/

namespace Sys2Proof.Machine

/-- `0000` HALT (R64). Without the halt row the word is unknown (R55; log 13): `step` decodes no halt there. -/
def execHalt (s : State) : Result :=
  if s.cfg.haltOnZero then .next { s with status := .halted } else .next (s.raiseUnknown (encode .halt))

/-- `00EE` RET (R65), in both stack disciplines. -/
def execRet (s : State) : Result :=
  if s.sp = 0 then raiseAt .ret .stackUnderflow none none s
  else
    match s.cfg.stackDiscipline with
    | .documented => .next { s with sp := s.sp - 1, pc := s.stack[(s.sp - 1).val] }
    | .returnAddress => .next { s with sp := s.sp - 1, pc := s.stack[s.sp.val] }

/-- `1nnn` JP addr (R66). -/
def execJpAddr (nnn : Addr) (s : State) : Result := .next { s with pc := addrWord nnn }

/-- The value `2nnn` pushes (R67): the target, or the advanced pc. -/
def State.pushedByCall (s : State) (nnn : Addr) : Word :=
  match s.cfg.stackDiscipline with
  | .documented => addrWord nnn
  | .returnAddress => s.pc

/-- `2nnn` CALL addr (R67), in both stack disciplines. -/
def execCallAddr (nnn : Addr) (s : State) : Result :=
  if s.sp = 15 then raiseAt (.callAddr nnn) .stackOverflow none none s
  else
    .next { s with sp := s.sp + 1, stack := s.stack.set (s.sp + 1).val (s.pushedByCall nnn), pc := addrWord nnn }

/-- `3xnn` SE Vx, byte (R68). -/
def execSeVxByte (x : Nibble) (nn : Byte) (s : State) : Result := .next (s.skipIf (s.getV x == nn))

/-- `4xnn` SNE Vx, byte (R69). -/
def execSneVxByte (x : Nibble) (nn : Byte) (s : State) : Result := .next (s.skipIf (s.getV x != nn))

/-- `5xy0` SE Vx, Vy (R70). -/
def execSeVxVy (x y : Nibble) (s : State) : Result := .next (s.skipIf (s.getV x == s.getV y))

/-- `9xy0` SNE Vx, Vy (R71). -/
def execSneVxVy (x y : Nibble) (s : State) : Result := .next (s.skipIf (s.getV x != s.getV y))

/-- `Bnnn` JP V0, addr (R72): the offset is always `V[0]`. -/
def execJpV0Addr (nnn : Addr) (s : State) : Result := .next { s with pc := addrWord nnn + byteWord (s.getV 0) }

end Sys2Proof.Machine
end

