-- ==== Sys2Proof/Machine/Display.lean ====
section
/-! DEFINITION. The display family (40_display.md): CLS and DRW. -/

namespace Sys2Proof.Machine

/-- `00E0` CLS (R62). -/
def execCls (s : State) : Result := .next { s with pix := Vector.replicate 32 0 }

/-- `Dxyn` DRW (R63): the memory check, then the display check, then all rows; the flag is 0 unless a cell collided. -/
def execDrwVxVyNibble (x y n : Nibble) (s : State) : Result :=
  let cx := s.startColumn x
  let cy := s.startRow y
  match s.loadBytes s.index.toNat n.toNat with
  | none => raiseAt (.drwVxVyNibble x y n) .memoryOutOfBounds (some s.index.toNat) (some n.toNat) s
  | some sprite =>
    if 32 < cy + n.toNat then
      raiseAt (.drwVxVyNibble x y n) .displayOutOfBounds (some cy) (some n.toNat) s
    else
      let drawn := drawRows cx cy sprite (s.pix, false)
      .next ({ s with pix := drawn.1 }.setFlag drawn.2)

end Sys2Proof.Machine
end

