-- ==== Sys2Proof/Machine/IndexMemory.lean ====
section
/-! DEFINITION. The index-register and memory family (43_index_memory.md). `I` is never changed by an access. -/

namespace Sys2Proof.Machine

/-- `Annn` LD I, addr (R86). -/
def execLdIAddr (nnn : Addr) (s : State) : Result := .next { s with index := addrWord nnn }

/-- `Fx1E` ADD I, Vx (R87): modulo 2^16, no flag. -/
def execAddIVx (x : Nibble) (s : State) : Result := .next { s with index := s.index + byteWord (s.getV x) }

/-- `Fx29` LD F, Vx (R88): a value above 0xF is a fatal error. -/
def execLdFVx (x : Nibble) (s : State) : Result :=
  let d := s.getV x
  if 0xF < d.toNat then raiseAt (.ldFVx x) .undefinedOperand (some d.toNat) (some 1) s
  else .next { s with index := glyphAddress d }

/-- `Fx33` LD B, Vx (R89): the decimal digits at `I`, all of them or none. -/
def execLdBVx (x : Nibble) (s : State) : Result :=
  let digits := decimalDigits s.cfg.bcdMode (s.getV x)
  match s.storeBytes s.index.toNat digits with
  | none => raiseAt (.ldBVx x) .memoryOutOfBounds (some s.index.toNat) (some digits.length) s
  | some s' => .next s'

/-- `Fx55` LD [I], Vx (R90): `V[0]..V[x]` at `I`, all of them or none. -/
def execLdMemVx (x : Nibble) (s : State) : Result :=
  match s.storeBytes s.index.toNat (s.getVs x) with
  | none => raiseAt (.ldMemVx x) .memoryOutOfBounds (some s.index.toNat) (some (x.toNat + 1)) s
  | some s' => .next s'

/-- `Fx65` LD Vx, [I] (R91): `V[0]..V[x]` from `I`, all of them or none. -/
def execLdVxMem (x : Nibble) (s : State) : Result :=
  match s.loadBytes s.index.toNat (x.toNat + 1) with
  | none => raiseAt (.ldVxMem x) .memoryOutOfBounds (some s.index.toNat) (some (x.toNat + 1)) s
  | some bytes => .next (s.setVs 0 bytes)

end Sys2Proof.Machine
end

