-- ==== Sys2Proof/Machine/Input.lean ====
section
/-! DEFINITION. The input family (45_input.md). -/

namespace Sys2Proof.Machine

/-- What `Ex9E` and `ExA1` share (R95, R96): the two checks in order, then one key sample and a skip when its answer is
the wanted one. -/
def keySkip (i : Instr) (wanted : Bool) (v : Byte) (s : State) : Result :=
  match s.cfg.keypad with
  | .absent => raiseAt i .unimplementedOpcode none none s
  | .present =>
    match nibbleOf v with
    | none => raiseAt i .undefinedOperand (some v.toNat) (some 1) s
    | some k => .next (s.tookDraw.skipIf (s.keySample k == wanted))

/-- `Ex9E` SKP Vx (R95). -/
def execSkpVx (x : Nibble) (s : State) : Result := keySkip (.skpVx x) true (s.getV x) s

/-- `ExA1` SKNP Vx (R96). -/
def execSknpVx (x : Nibble) (s : State) : Result := keySkip (.sknpVx x) false (s.getV x) s

end Sys2Proof.Machine
end

