-- ==== Sys2Proof/Machine/Timers.lean ====
section
/-! DEFINITION. The timer family (44_timers.md). The time is sampled once by the executing instruction. -/

namespace Sys2Proof.Machine

/-- `trunc_8((t - tDT) mod 255)` (R92). A sample is never before `tDT` (60_exceptions.md R109; log 20). -/
def State.elapsedByte (s : State) (t : Nat) : Byte := BitVec.ofNat 8 ((t - s.tdt) % 255)

/-- `DT <- v; tDT <- t` (R93). -/
def State.writeDelay (s : State) (v : Byte) (t : Nat) : State := { s with dt := v, tdt := t }

/-- `ST <- v; tST <- t` (R94). -/
def State.writeSound (s : State) (v : Byte) (t : Nat) : State := { s with st := v, tst := t }

/-- `Fx07` LD Vx, DT (R92): the time since the last delay-timer write, modulo 255; `DT` is not read. -/
def execLdVxDT (x : Nibble) (s : State) : Result := .next (s.tookTime.setV x (s.elapsedByte s.nowSample))

/-- `Fx15` LD DT, Vx (R93). -/
def execLdDTVx (x : Nibble) (s : State) : Result := .next (s.tookTime.writeDelay (s.getV x) s.nowSample)

/-- `Fx18` LD ST, Vx (R94). -/
def execLdSTVx (x : Nibble) (s : State) : Result := .next (s.tookTime.writeSound (s.getV x) s.nowSample)

end Sys2Proof.Machine
end

