-- ==== Sys2Proof/Machine/Step.lean ====
section
/-! DEFINITION. One pass of the dispatch cycle (30_encoding.md R57): fetch, advance, decode, execute, redraw. -/

namespace Sys2Proof.Machine

/-- One step (R57). A core that has halted or faulted changes nothing; a fetch past memory raises before the advance; an
unknown word raises after it; a known one runs its rule with `pc = ia + 2` and ends in a redraw event if it completes. -/
def step (s : State) : Host.Outcome State Fault Refusal :=
  match s.status with
  | .halted => .next s
  | .faulted => .next s
  | .running =>
    match s.fetchWord with
    | none => .next s.raiseFetch
    | some w =>
      match decodeWord s.cfg.haltOnZero w with
      | none => .next (s.advance.raiseUnknown w)
      | some i => finishStep (exec i s.advance)

/-- The state with the opcode table's word stored at `pc`, where the next fetch reads it (log 17). -/
def State.withFetchWord (s : State) (nbits w : Nat) : State := s.placeWord (tableWord nbits w)

end Sys2Proof.Machine
end

