-- ==== Sys2Proof/Safety.lean ====
section
/-! DEFINITION. The terms claims are made in: the named parts of the state, what it is for two states to agree on a part,
and the predicates on states that every step keeps. -/

namespace Sys2Proof.Machine

/-- A part of the state. `reg x` is `V[x]` as an instruction reads it (10_state.md R17); `byte a` is `M[a]`. -/
inductive Part where
  | reg (x : Nibble)
  | flag
  | index
  | pc
  | sp
  | slot (k : Fin 16)
  | dt
  | tdt
  | st
  | tst
  | pixel (p : Nat)
  | byte (a : Nat)
  | status
  | fault
  | cfg
  | clock
  | draws
  | redraws
  deriving DecidableEq, Repr

/-- The two states hold the same in a part. -/
def State.same (s t : State) : Part → Prop
  | .reg x => t.getV x = s.getV x
  | .flag => t.flag = s.flag
  | .index => t.index = s.index
  | .pc => t.pc = s.pc
  | .sp => t.sp = s.sp
  | .slot k => t.stack[k.val] = s.stack[k.val]
  | .dt => t.dt = s.dt
  | .tdt => t.tdt = s.tdt
  | .st => t.st = s.st
  | .tst => t.tst = s.tst
  | .pixel p => pixelAt t.pix p = pixelAt s.pix p
  | .byte a => t.readByte a = s.readByte a
  | .status => t.status = s.status
  | .fault => t.fault = s.fault
  | .cfg => t.cfg = s.cfg
  | .clock => t.clock = s.clock
  | .draws => t.draws = s.draws
  | .redraws => t.redraws = s.redraws

/-- Every part but those of `changed` is the same. -/
def State.sameBut (s t : State) (changed : Part → Prop) : Prop := ∀ p, ¬ changed p → s.same t p

/-- The part is `V[x]`: `reg x`, and the flag too where it is the same cell (R17). -/
def State.isV (s : State) (x : Nibble) (p : Part) : Prop :=
  p = .reg x ∨ (s.isFlagCell x = true ∧ p = .flag)

/-- The part is the flag register: `flag`, and `V[15]` too where it is the same cell (R17). -/
def State.isFlag (s : State) (p : Part) : Prop :=
  p = .flag ∨ ∃ x, s.isFlagCell x = true ∧ p = .reg x

/-- The state's memory is canonical over its own background. -/
def State.memWf (s : State) : Bool := Memory.wf (Memory.background s.cfg) s.mem

/-- The fault record is there exactly when the core has faulted, and its code is its kind's (10_state.md R28,
60_exceptions.md R98). -/
def State.recordWf (s : State) : Prop :=
  (s.status = .faulted ↔ s.fault.isSome = true) ∧ ∀ r, s.fault = some r → r.code = faultCode r.kind

/-- The time stamps are samples already taken (10_state.md R23, R24, 60_exceptions.md R109). -/
def State.stampsWf (s : State) : Prop := s.tdt ≤ s.clock ∧ s.tst ≤ s.clock

/-- The invariant of the machine. -/
def State.Inv (s : State) : Prop := s.memWf = true ∧ s.recordWf ∧ s.stampsWf

/-- The values `pc` and the stack can hold when slot 0 holds no more than a fetchable address' successor (R20). -/
def State.pcBounded (s : State) : Prop := s.pc.toNat ≤ 0x10FE ∧ ∀ k : Fin 16, (s.stack[k.val]).toNat ≤ 0x1000

/-- The flag register holds 0 or 1 (10_state.md R16, 90_conflicts.md C8). -/
def State.flagIsBit (s : State) : Prop := s.flag = 0 ∨ s.flag = 1

/-- One step of a safe run: it answers a next state that has not faulted. -/
def State.stepsSafely (s : State) : Prop := ∃ t, step s = .next t ∧ t.status ≠ .faulted

end Sys2Proof.Machine
end

