-- ==== Sys2Proof/Certificates/Slice0/Obligations.lean ====
section
/-! DEFINITION. The statements for the provers. In every statement about `exec` the state is the one the dispatcher hands
to the instruction's rule: its `pc` is the instruction's address plus 2 (30_encoding.md R58, log 16), so the address a
fault record holds is `s.pc - 2`. `s.sameBut t changed` says that every part of the state but those named is the same in
`t` as in `s`: every register, the flag, `I`, `pc`, `sp`, every stack slot, the timers, every pixel, every byte of memory,
the status, the record, the configuration and the model's own counters (Sys2Proof/Safety.lean). -/

open Sys2Proof Sys2Proof.Machine

/-! ### Encoding and decoding -/

/-- Words written out from the opcode map (R51), one or more of each family, and what they stand for. -/
def Obligations.DecodesWordsOfTheMap : Prop :=
  decodeTableWord 16 0x0000 = some .halt ∧
  decodeTableWord 16 0x00E0 = some .cls ∧
  decodeTableWord 16 0xD015 = some (.drwVxVyNibble 0 1 5) ∧
  decodeTableWord 16 0x00EE = some .ret ∧
  decodeTableWord 16 0x2300 = some (.callAddr 0x300) ∧
  decodeTableWord 16 0x3342 = some (.seVxByte 3 0x42) ∧
  decodeTableWord 16 0x8FE4 = some (.addVxVy 15 14) ∧
  decodeTableWord 16 0x812E = some (.shlVxVy 1 2) ∧
  decodeTableWord 16 0xA300 = some (.ldIAddr 0x300) ∧
  decodeTableWord 16 0xF265 = some (.ldVxMem 2) ∧
  decodeTableWord 16 0xF515 = some (.ldDTVx 5) ∧
  decodeTableWord 16 0xE1A1 = some (.sknpVx 1) ∧
  decodeTableWord 16 0xE123 = none ∧
  decodeTableWord 16 0x5121 = none ∧
  decodeTableWord 16 0xF00A = none

/-- Decoding the two bytes of any well-formed instruction gives it back, in every configuration. -/
def Obligations.DecodeOfEncodeIsIdentity : Prop :=
  ∀ (cfg : Config) (i : Instr), i.wellFormed cfg = true →
    decode cfg [highByte (encode i), lowByte (encode i)] = .ok (i, [])

/-- Every word that decodes is the word of the instruction it decodes to, which is a row of the configuration. -/
def Obligations.EncodeOfDecodeIsIdentity : Prop :=
  ∀ (cfg : Config) (w : Word) (i : Instr), decodeWord cfg.haltOnZero w = some i →
    encode i = w ∧ i.wellFormed cfg = true

/-- R52: a word matches a row when the row's mask leaves its match; no word matches two rows; a decoded word matches its
row, and a word that matches no row of the configuration is unknown. -/
def Obligations.OpcodeRowsAreDisjoint : Prop :=
  ∀ (cfg : Config) (w : Word),
    (∀ i j : Instr, w &&& rowMask i = rowMatch i → w &&& rowMask j = rowMatch j →
      rowMask i = rowMask j ∧ rowMatch i = rowMatch j) ∧
    (∀ i : Instr, decodeWord cfg.haltOnZero w = some i → w &&& rowMask i = rowMatch i) ∧
    (decodeWord cfg.haltOnZero w = none ↔
      ∀ i : Instr, i.wellFormed cfg = true → w &&& rowMask i ≠ rowMatch i)

/-- How many of the 65536 words are legal: the count 30_encoding.md marks as derived from its own opcode map. -/
def Obligations.LegalWordCount : Prop :=
  (List.range 65536).countP (fun w => (decodeWord true (BitVec.ofNat 16 w)).isSome) = 43939 ∧
  (List.range 65536).countP (fun w => (decodeWord false (BitVec.ofNat 16 w)).isSome) = 43938

/-- R48: the four nibbles of two bytes, most significant first, and the source's example. -/
def Obligations.NibblesOfTwoBytes : Prop :=
  (∀ (hi lo : Byte) (n0 n1 n2 n3 : Nibble), nibblesOf hi lo = (n0, n1, n2, n3) →
    n0.toNat = hi.toNat / 16 ∧ n1.toNat = hi.toNat % 16 ∧ n2.toNat = lo.toNat / 16 ∧ n3.toNat = lo.toNat % 16) ∧
  nibblesOf 0xAB 0xCD = (0xA, 0xB, 0xC, 0xD)

/-! ### The dispatch cycle -/

/-- R36: the word at `pc` is `(M[pc] << 8) | M[pc+1]`, at every `pc`, odd ones too, whose two bytes exist. -/
def Obligations.FetchIsBigEndian : Prop :=
  ∀ s : State, s.pc.toNat ≤ 0xFFE →
    ∃ w, s.fetchWord = some w ∧
      w.toNat = 256 * (s.readByte s.pc.toNat).toNat + (s.readByte (s.pc.toNat + 1)).toNat

/-- A running step whose fetched word decodes to an instruction is that instruction's rule on the advanced state, ended
by the redraw event where the rule completes; that the event is counted in `redraws` is the model's choice (log 14). -/
def Obligations.StepRunsTheDecodedInstruction : Prop :=
  ∀ (s : State) (w : Word) (i : Instr), s.status = .running → s.fetchWord = some w →
    decodeWord s.cfg.haltOnZero w = some i →
    step s = finishStep (exec i s.advance) ∧ s.advance = { s with pc := s.pc + 2 } ∧
    ∀ u, exec i s.advance = .next u →
      step s = .next (if u.status = .running then { u with redraws := u.redraws + 1 } else u)

/-- R58: a running step whose two bytes do not both exist raises MEMORY_OUT_OF_BOUNDS with `addr = ia`, `size = 2`, an
empty word, and `pc` not advanced; any other running step reads its word and runs on with `pc = ia + 2`. -/
def Obligations.FetchAndAdvance : Prop :=
  ∀ s : State, s.status = .running →
    (0xFFE < s.pc.toNat →
      step s = .next { s with
        status := .faulted
        fault := some { kind := .memoryOutOfBounds, code := 4, ia := some s.pc, word := none,
                        addr := some s.pc.toNat, size := some 2 } }) ∧
    (s.pc.toNat ≤ 0xFFE →
      ∃ w, s.fetchWord = some w ∧
        w = wordOfBytes (s.readByte s.pc.toNat) (s.readByte (s.pc.toNat + 1)) ∧
        (∀ i, decodeWord s.cfg.haltOnZero w = some i →
          step s = finishStep (exec i { s with pc := s.pc + 2 })) ∧
        (decodeWord s.cfg.haltOnZero w = none → ∀ t, step s = .next t → t.pc = s.pc + 2))

/-- R55, R100: a word that matches no row raises UNKNOWN_OPCODE with its address and the whole word, `pc` advanced and
nothing else changed; and the words the rule names are such words. -/
def Obligations.UnknownWordFaults : Prop :=
  (∀ (s : State) (w : Word), s.status = .running → s.fetchWord = some w →
    decodeWord s.cfg.haltOnZero w = none →
    step s = .next { s with
      pc := s.pc + 2
      status := .faulted
      fault := some { kind := .unknownOpcode, code := 1, ia := some s.pc, word := some w,
                      addr := none, size := none } }) ∧
  (∀ h : Bool, decodeWord h 0xE123 = none ∧ decodeWord h 0xF00A = none ∧
    (∀ x y : Nibble, decodeWord h (0x5#4 ++ x ++ y ++ 0x1#4) = none) ∧
    (∀ x y : Nibble, decodeWord h (0x8#4 ++ x ++ y ++ 0xF#4) = none) ∧
    (∀ nnn : Addr, nnn ≠ 0x0E0 → nnn ≠ 0x0EE → nnn ≠ 0x000 → decodeWord h (0x0#4 ++ nnn) = none)) ∧
  decodeWord false 0x0000 = none

/-- R114: a core that has halted or faulted does nothing, however often it is stepped. -/
def Obligations.StoppedCoreDoesNothing : Prop :=
  ∀ (s : State) (n : Nat), s.status ≠ .running → core.run n s = .next s

/-- A step of a running core emits exactly one redraw event when it completes, and none when it halts or faults (R61,
R126). That an event is one more in the field `redraws` is the model's choice (log 14). -/
def Obligations.OneRedrawPerCompletedStep : Prop :=
  ∀ s t : State, s.status = .running → step s = .next t →
    (t.status = .running → t.redraws = s.redraws + 1) ∧ (t.status ≠ .running → t.redraws = s.redraws)

/-- No step and no instruction of the model stops: every one answers a next state. -/
def Obligations.EveryStepAnswers : Prop :=
  (∀ s : State, ∃ t, step s = .next t) ∧ (∀ (i : Instr) (s : State), ∃ t, exec i s = .next t)

/-! ### Reset -/

/-- What reset leaves in every cell but memory (R29, R129), for every configuration, program and time sample. The zeros
under `RESET_FILL = ZERO` are a choice of the spec (D5 to D8, log 8); under `DRAW` each of those cells holds a free value of
its own (D40, log 8), the pixel of row `r` and column `c` being bit `c` of the row's draw (log 10). `cfg` and `clock` are
fields of the model's own (log 1, log 4). -/
def Obligations.ResetLeavesTheCells : Prop :=
  ∀ (cfg : Config) (program : List Byte) (t0 : Nat),
    let s := State.resetWith cfg program t0
    s.cfg = cfg ∧ s.index = 0x200 ∧ s.pc = 0x200 ∧ s.sp = 0 ∧ s.tdt = t0 ∧ s.tst = t0 ∧ s.clock = t0 ∧
    (program.length ≤ 3584 → s.status = .running ∧ s.fault = none) ∧
    (cfg.resetFill = .zero →
      (∀ x, s.getV x = 0) ∧ s.flag = 0 ∧ (∀ k : Fin 16, s.stack[k.val] = 0) ∧ s.dt = 0 ∧ s.st = 0 ∧
      ∀ p, pixelAt s.pix p = false) ∧
    (cfg.resetFill = .draw →
      (∀ k : Fin 16, s.vcell[k.val] = Config.fillV k.val) ∧
      (∀ x : Nibble, s.getV x = if s.isFlagCell x then Config.fillFlag else Config.fillV x.toNat) ∧
      s.flag = Config.fillFlag ∧ (∀ k : Fin 16, s.stack[k.val] = Config.fillStack k.val) ∧
      s.dt = Config.fillDT ∧ s.st = Config.fillST ∧
      ∀ r c, r < 32 → c < 64 → pixelAt s.pix (r * 64 + c) = (Config.fillRow r).getLsbD c)

/-- What reset leaves in memory: the glyph table, the program where it fits (no byte of it where it does not), and
elsewhere 0 under `RESET_FILL = ZERO`, a choice of the spec (D4, log 8), or that address's own free draw under `DRAW`. -/
def Obligations.ResetLeavesMemory : Prop :=
  ∀ (cfg : Config) (program : List Byte) (t0 : Nat),
    let s := State.resetWith cfg program t0
    let len := if program.length ≤ 3584 then program.length else 0
    (∀ j : Fin 80, s.readByte (0x050 + j.val) = cfg.glyphTable[j.val]) ∧
    (∀ j : Fin program.length, program.length ≤ 3584 → s.readByte (0x200 + j.val) = program[j.val]) ∧
    (∀ a, a < 4096 → ¬ (0x050 ≤ a ∧ a < 0x0A0) → ¬ (0x200 ≤ a ∧ a < 0x200 + len) →
      s.readByte a = if cfg.resetFill = .zero then 0 else Config.fillMem a)

/-- R106: a program longer than 3584 bytes ends reset in FAULTED with the PROGRAM_TOO_LARGE record, and no instruction
ever runs. -/
def Obligations.OversizedProgramFaults : Prop :=
  ∀ (cfg : Config) (program : List Byte) (t0 n : Nat), 3584 < program.length →
    let s := State.resetWith cfg program t0
    s.status = .faulted ∧
    s.fault = some { kind := .programTooLarge, code := 5, ia := none, word := none, addr := none,
                     size := some program.length } ∧
    core.run n s = .next s

/-- Reset meets the machine's invariant, in every configuration. -/
def Obligations.ResetMeetsTheInvariant : Prop :=
  (∀ (cfg : Config) (program : List Byte) (t0 : Nat), (State.resetWith cfg program t0).Inv) ∧
  (∀ (cfg : Config) (program : List Byte) (t0 : Nat), cfg.resetFill = .zero →
    (State.resetWith cfg program t0).pcBounded ∧ (State.resetWith cfg program t0).flagIsBit) ∧
  State.reset.Inv

/-! ### What every step keeps -/

/-- Every step keeps the invariant: memory canonical, the record there exactly when faulted and with its kind's code, the
time stamps no later than the latest sample. -/
def Obligations.StepKeepsTheInvariant : Prop :=
  ∀ s t : State, s.Inv → step s = .next t → t.Inv

/-- Under `FLAG_ALIAS = SEPARATE` the flag register holds 0 or 1 for good once it does (R16, 90_conflicts.md C8). -/
def Obligations.StepKeepsFlagABit : Prop :=
  ∀ s t : State, s.cfg.flagAlias = .separate → s.flagIsBit → step s = .next t → t.flagIsBit

/-- `pc` never passes 0x10FE and no stack slot 0x1000, once that is so (R20). -/
def Obligations.StepKeepsPcBounded : Prop :=
  ∀ s t : State, s.pcBounded → step s = .next t → t.pcBounded

/-- R21: no instruction writes slot 0, and only CALL writes a slot, the one `sp` names afterwards. -/
def Obligations.OnlyCallWritesTheStack : Prop :=
  (∀ s t : State, step s = .next t → t.stack[0] = s.stack[0]) ∧
  (∀ (i : Instr) (s t : State) (k : Fin 16), exec i s = .next t → t.stack[k.val] ≠ s.stack[k.val] →
    (∃ nnn, i = .callAddr nnn) ∧ k = t.sp ∧ k ≠ 0)

/-- The parameters are static for a run (R5, R11, R31), and time samples never decrease (R109): the latest sample only
grows, at every step. That the state holds both, as `cfg` and `clock`, is the model's choice (log 1, log 4). -/
def Obligations.ConfigStaticAndTimeMonotone : Prop :=
  ∀ s t : State, step s = .next t → t.cfg = s.cfg ∧ s.clock ≤ t.clock

/-- R107: a step that faults writes nothing but `status` and `fault`, past the fetch's advance; its record names the
instruction's address, and its word unless the fetch itself failed. -/
def Obligations.FaultingStepWritesNothing : Prop :=
  ∀ s t : State, s.status = .running → step s = .next t → t.status = .faulted →
    (0xFFE < s.pc.toNat ∧ ∃ r, t = { s with status := .faulted, fault := some r } ∧
      r.ia = some s.pc ∧ r.word = none ∧ r.kind = .memoryOutOfBounds) ∨
    (s.pc.toNat ≤ 0xFFE ∧ ∃ r, t = { s with pc := s.pc + 2, status := .faulted, fault := some r } ∧
      r.ia = some s.pc ∧ r.word = s.fetchWord)

/-- Only the instructions the rules name write `sp`, the pixels, memory, `I`, the timers and their stamps, or halt the core
(R19, R22 to R25, R32, R64). -/
def Obligations.OnlyNamedInstructionsWrite : Prop :=
  ∀ (i : Instr) (s t : State), exec i s = .next t →
    (t.sp ≠ s.sp → i = .ret ∨ ∃ nnn, i = .callAddr nnn) ∧
    ((∃ p, pixelAt t.pix p ≠ pixelAt s.pix p) → i = .cls ∨ ∃ x y n, i = .drwVxVyNibble x y n) ∧
    ((∃ a, t.readByte a ≠ s.readByte a) → (∃ x, i = .ldBVx x) ∨ ∃ x, i = .ldMemVx x) ∧
    (t.index ≠ s.index → (∃ nnn, i = .ldIAddr nnn) ∨ (∃ x, i = .addIVx x) ∨ ∃ x, i = .ldFVx x) ∧
    (t.dt ≠ s.dt ∨ t.tdt ≠ s.tdt → ∃ x, i = .ldDTVx x) ∧
    (t.st ≠ s.st ∨ t.tst ≠ s.tst → ∃ x, i = .ldSTVx x) ∧
    (s.status = .running → t.status = .halted → i = .halt)

/-- Under `FLAG_ALIAS = SEPARATE` only ADD, SUB, SUBN, SHR, SHL on registers and DRW write the flag (R16). -/
def Obligations.OnlyFlagInstructionsWriteTheFlag : Prop :=
  ∀ (i : Instr) (s t : State), s.cfg.flagAlias = .separate → exec i s = .next t → t.flag ≠ s.flag →
    ∃ x y, i = .addVxVy x y ∨ i = .subVxVy x y ∨ i = .subnVxVy x y ∨ i = .shrVxVy x y ∨ i = .shlVxVy x y ∨
      ∃ n, i = .drwVxVyNibble x y n

/-- R17: a register reads as what was last written to it and a write changes no other register, also where `V[15]` and the
flag are one cell; the flag is then `V[15]`, and a 17th cell otherwise. -/
def Obligations.RegistersAndFlagAlias : Prop :=
  ∀ (s : State) (x y : Nibble) (v : Byte),
    (s.setV x v).getV x = v ∧ (y ≠ x → (s.setV x v).getV y = s.getV y) ∧
    (s.cfg.flagAlias = .vf → s.getV 15 = s.flag ∧ (s.setV 15 v).flag = v ∧ (s.setV 15 v).vcell = s.vcell) ∧
    (s.cfg.flagAlias = .separate → (s.setV x v).flag = s.flag ∧ s.getV x = s.vcell[x.toFin.val])

/-! ### The display family -/

/-- R62: CLS clears every cell and touches nothing else. -/
def Obligations.ClsClearsThePixels : Prop :=
  ∀ s : State, encode .cls = 0x00E0 ∧
    ∃ t, exec .cls s = .next t ∧ (∀ p, pixelAt t.pix p = false) ∧ s.sameBut t (fun q => ∃ p, q = .pixel p)

/-- R63: DRW. With `cx = V[x] mod 64` and `cy = V[y] mod 32`: the memory fault when a sprite byte does not exist, else the
display fault when a row would fall below row 31, else every processed cell becomes `bit AND NOT old`, every other cell
keeps its value, and the flag is 1 exactly when some processed cell held 1 and received a 1. -/
def Obligations.DrwDrawsWithCollision : Prop :=
  ∀ (x y n : Nibble) (s : State),
    let cx := (s.getV x).toNat % 64
    let cy := (s.getV y).toNat % 32
    let I := s.index.toNat
    encode (.drwVxVyNibble x y n) = 0xD#4 ++ x ++ y ++ n ∧
    (0 < n.toNat → 4096 < I + n.toNat →
      exec (.drwVxVyNibble x y n) s = .next { s with
        status := .faulted
        fault := some { kind := .memoryOutOfBounds, code := 4, ia := some (s.pc - 2),
                        word := some (0xD#4 ++ x ++ y ++ n), addr := some I, size := some n.toNat } }) ∧
    ((n.toNat = 0 ∨ I + n.toNat ≤ 4096) → 32 < cy + n.toNat →
      exec (.drwVxVyNibble x y n) s = .next { s with
        status := .faulted
        fault := some { kind := .displayOutOfBounds, code := 6, ia := some (s.pc - 2),
                        word := some (0xD#4 ++ x ++ y ++ n), addr := some cy, size := some n.toNat } }) ∧
    ((n.toNat = 0 ∨ I + n.toNat ≤ 4096) → cy + n.toNat ≤ 32 →
      ∃ t, exec (.drwVxVyNibble x y n) s = .next t ∧
        (∀ r c, r < n.toNat → c < 8 → cx + c < 64 →
          pixelAt t.pix ((cy + r) * 64 + (cx + c)) =
            ((s.readByte (I + r)).getLsbD (7 - c) && !pixelAt s.pix ((cy + r) * 64 + (cx + c)))) ∧
        ((∃ r c, r < n.toNat ∧ c < 8 ∧ cx + c < 64 ∧ (s.readByte (I + r)).getLsbD (7 - c) = true ∧
          pixelAt s.pix ((cy + r) * 64 + (cx + c)) = true) → t.flag = 1) ∧
        ((¬ ∃ r c, r < n.toNat ∧ c < 8 ∧ cx + c < 64 ∧ (s.readByte (I + r)).getLsbD (7 - c) = true ∧
          pixelAt s.pix ((cy + r) * 64 + (cx + c)) = true) → t.flag = 0) ∧
        s.sameBut t (fun q => s.isFlag q ∨
          ∃ r c, r < n.toNat ∧ c < 8 ∧ cx + c < 64 ∧ q = .pixel ((cy + r) * 64 + (cx + c))))

/-- R63, the derived corner case (90_conflicts.md C5): the same sprite drawn twice leaves each processed cell at
`bit AND old`, and the second draw's flag is 1 exactly when a 1 bit falls on a cell that was 0 before the first. The
registers that give the place are not the flag's cell, so that the second draw is at the same place. -/
def Obligations.DrawingTwice : Prop :=
  ∀ (x y n : Nibble) (s t u : State),
    let cx := (s.getV x).toNat % 64
    let cy := (s.getV y).toNat % 32
    let I := s.index.toNat
    I + n.toNat ≤ 4096 → cy + n.toNat ≤ 32 → s.isFlagCell x = false → s.isFlagCell y = false →
    exec (.drwVxVyNibble x y n) s = .next t → exec (.drwVxVyNibble x y n) t = .next u →
    (∀ r c, r < n.toNat → c < 8 → cx + c < 64 →
      pixelAt u.pix ((cy + r) * 64 + (cx + c)) =
        ((s.readByte (I + r)).getLsbD (7 - c) && pixelAt s.pix ((cy + r) * 64 + (cx + c)))) ∧
    (u.flag = 1 ↔ ∃ r c, r < n.toNat ∧ c < 8 ∧ cx + c < 64 ∧ (s.readByte (I + r)).getLsbD (7 - c) = true ∧
      pixelAt s.pix ((cy + r) * 64 + (cx + c)) = false)

/-! ### The control-flow family -/

/-- R64: HALT sets the status to HALTED and changes nothing else, where the configuration has the halt row; where it has
not, the word `0000` is unknown. -/
def Obligations.HaltStopsTheCore : Prop :=
  encode .halt = 0x0000 ∧ decodeWord true 0x0000 = some .halt ∧ decodeWord false 0x0000 = none ∧
  ∀ s : State, s.cfg.haltOnZero = true → exec .halt s = .next { s with status := .halted }

/-- R65: RET in both stack disciplines, and its underflow. -/
def Obligations.RetPopsTheStack : Prop :=
  ∀ s : State, encode .ret = 0x00EE ∧
    (s.sp = 0 →
      exec .ret s = .next { s with
        status := .faulted
        fault := some { kind := .stackUnderflow, code := 2, ia := some (s.pc - 2), word := some 0x00EE,
                        addr := none, size := none } }) ∧
    (∀ below : Fin 16, below.val + 1 = s.sp.val →
      ∃ t, exec .ret s = .next t ∧ t.sp = below ∧
        (s.cfg.stackDiscipline = .documented → t.pc = s.stack[below.val]) ∧
        (s.cfg.stackDiscipline = .returnAddress → t.pc = s.stack[s.sp.val]) ∧
        s.sameBut t (fun q => q = .sp ∨ q = .pc))

/-- R66: JP goes to its 12-bit address. -/
def Obligations.JpSetsThePc : Prop :=
  ∀ (nnn : Addr) (s : State), encode (.jpAddr nnn) = 0x1#4 ++ nnn ∧
    ∃ t, exec (.jpAddr nnn) s = .next t ∧ t.pc.toNat = nnn.toNat ∧ s.sameBut t (fun q => q = .pc)

/-- R67: CALL in both stack disciplines, and its overflow. -/
def Obligations.CallPushesTheStack : Prop :=
  ∀ (nnn : Addr) (s : State), encode (.callAddr nnn) = 0x2#4 ++ nnn ∧
    (s.sp = 15 →
      exec (.callAddr nnn) s = .next { s with
        status := .faulted
        fault := some { kind := .stackOverflow, code := 2, ia := some (s.pc - 2), word := some (0x2#4 ++ nnn),
                        addr := none, size := none } }) ∧
    (∀ above : Fin 16, above.val = s.sp.val + 1 →
      ∃ t, exec (.callAddr nnn) s = .next t ∧ t.sp = above ∧ t.pc.toNat = nnn.toNat ∧
        (s.cfg.stackDiscipline = .documented → (t.stack[above.val]).toNat = nnn.toNat) ∧
        (s.cfg.stackDiscipline = .returnAddress → t.stack[above.val] = s.pc) ∧
        s.sameBut t (fun q => q = .sp ∨ q = .pc ∨ q = .slot above))

/-- Under `STACK_DISCIPLINE = RETURN_ADDRESS` a call and the return that follows it restore `sp` and `pc` (R10,
90_conflicts.md C2), whatever address the return is fetched from. -/
def Obligations.CallThenReturnRestoresPc : Prop :=
  ∀ (nnn : Addr) (s t : State) (p : Word), s.cfg.stackDiscipline = .returnAddress → s.sp ≠ 15 →
    exec (.callAddr nnn) s = .next t →
    ∃ u, exec .ret { t with pc := p } = .next u ∧ u.pc = s.pc ∧ u.sp = s.sp

/-- R68, R69: the skips on an immediate add 2 to the advanced pc, modulo 2^16, exactly when their test holds. -/
def Obligations.SkipsOnAByte : Prop :=
  ∀ (x : Nibble) (nn : Byte) (s : State),
    encode (.seVxByte x nn) = 0x3#4 ++ x ++ nn ∧ encode (.sneVxByte x nn) = 0x4#4 ++ x ++ nn ∧
    (∃ t, exec (.seVxByte x nn) s = .next t ∧
      t.pc.toNat = (if (s.getV x).toNat = nn.toNat then (s.pc.toNat + 2) % 65536 else s.pc.toNat) ∧
      s.sameBut t (fun q => q = .pc)) ∧
    (∃ t, exec (.sneVxByte x nn) s = .next t ∧
      t.pc.toNat = (if (s.getV x).toNat = nn.toNat then s.pc.toNat else (s.pc.toNat + 2) % 65536) ∧
      s.sameBut t (fun q => q = .pc))

/-- R70, R71: the skips on two registers. -/
def Obligations.SkipsOnTwoRegisters : Prop :=
  ∀ (x y : Nibble) (s : State),
    encode (.seVxVy x y) = 0x5#4 ++ x ++ y ++ 0x0#4 ∧ encode (.sneVxVy x y) = 0x9#4 ++ x ++ y ++ 0x0#4 ∧
    (∃ t, exec (.seVxVy x y) s = .next t ∧
      t.pc.toNat = (if (s.getV x).toNat = (s.getV y).toNat then (s.pc.toNat + 2) % 65536 else s.pc.toNat) ∧
      s.sameBut t (fun q => q = .pc)) ∧
    (∃ t, exec (.sneVxVy x y) s = .next t ∧
      t.pc.toNat = (if (s.getV x).toNat = (s.getV y).toNat then s.pc.toNat else (s.pc.toNat + 2) % 65536) ∧
      s.sameBut t (fun q => q = .pc))

/-- R72: JP V0 goes to its address plus `V[0]`, without wrapping. -/
def Obligations.JpV0AddsV0 : Prop :=
  ∀ (nnn : Addr) (s : State), encode (.jpV0Addr nnn) = 0xB#4 ++ nnn ∧
    ∃ t, exec (.jpV0Addr nnn) s = .next t ∧ t.pc.toNat = nnn.toNat + (s.getV 0).toNat ∧
      s.sameBut t (fun q => q = .pc)

/-! ### The ALU family -/

/-- R74: LD Vx, byte. -/
def Obligations.LdByteLoads : Prop :=
  ∀ (x : Nibble) (nn : Byte) (s : State), encode (.ldVxByte x nn) = 0x6#4 ++ x ++ nn ∧
    ∃ t, exec (.ldVxByte x nn) s = .next t ∧ t.getV x = nn ∧ s.sameBut t (s.isV x)

/-- R75: ADD Vx, byte wraps modulo 256 and writes no flag. -/
def Obligations.AddByteWraps : Prop :=
  ∀ (x : Nibble) (nn : Byte) (s : State), encode (.addVxByte x nn) = 0x7#4 ++ x ++ nn ∧
    ∃ t, exec (.addVxByte x nn) s = .next t ∧
      (t.getV x).toNat = ((s.getV x).toNat + nn.toNat) % 256 ∧ s.sameBut t (s.isV x)

/-- R76: LD Vx, Vy. -/
def Obligations.LdRegisterCopies : Prop :=
  ∀ (x y : Nibble) (s : State), encode (.ldVxVy x y) = 0x8#4 ++ x ++ y ++ 0x0#4 ∧
    ∃ t, exec (.ldVxVy x y) s = .next t ∧ t.getV x = s.getV y ∧ s.sameBut t (s.isV x)

/-- R77, R78, R79: OR, AND and XOR, bit by bit; the flag is unchanged. -/
def Obligations.BitwiseResults : Prop :=
  ∀ (x y : Nibble) (s : State),
    encode (.orVxVy x y) = 0x8#4 ++ x ++ y ++ 0x1#4 ∧ encode (.andVxVy x y) = 0x8#4 ++ x ++ y ++ 0x2#4 ∧
    encode (.xorVxVy x y) = 0x8#4 ++ x ++ y ++ 0x3#4 ∧
    (∃ t, exec (.orVxVy x y) s = .next t ∧
      (∀ b, (t.getV x).getLsbD b = ((s.getV x).getLsbD b || (s.getV y).getLsbD b)) ∧ s.sameBut t (s.isV x)) ∧
    (∃ t, exec (.andVxVy x y) s = .next t ∧
      (∀ b, (t.getV x).getLsbD b = ((s.getV x).getLsbD b && (s.getV y).getLsbD b)) ∧ s.sameBut t (s.isV x)) ∧
    (∃ t, exec (.xorVxVy x y) s = .next t ∧
      (∀ b, (t.getV x).getLsbD b = ((s.getV x).getLsbD b != (s.getV y).getLsbD b)) ∧ s.sameBut t (s.isV x))

/-- R80: ADD Vx, Vy, with the carry in the flag (lost where `V[x]` is the flag's own cell). -/
def Obligations.AddSetsTheCarry : Prop :=
  ∀ (x y : Nibble) (s : State),
    let sum := (s.getV x).toNat + (s.getV y).toNat
    encode (.addVxVy x y) = 0x8#4 ++ x ++ y ++ 0x4#4 ∧
    ∃ t, exec (.addVxVy x y) s = .next t ∧ (t.getV x).toNat = sum % 256 ∧
      (s.isFlagCell x = false → t.flag = if 255 < sum then 1 else 0) ∧
      s.sameBut t (fun q => s.isV x q ∨ s.isFlag q)

/-- R81, R82: SUB and SUBN, with the flag 1 only on a strictly positive difference. -/
def Obligations.SubSetsThePositiveFlag : Prop :=
  ∀ (x y : Nibble) (s : State),
    let a := (s.getV x).toNat
    let b := (s.getV y).toNat
    encode (.subVxVy x y) = 0x8#4 ++ x ++ y ++ 0x5#4 ∧ encode (.subnVxVy x y) = 0x8#4 ++ x ++ y ++ 0x7#4 ∧
    (∃ t, exec (.subVxVy x y) s = .next t ∧ (t.getV x).toNat = (256 + a - b) % 256 ∧
      (s.isFlagCell x = false → t.flag = if b < a then 1 else 0) ∧
      s.sameBut t (fun q => s.isV x q ∨ s.isFlag q)) ∧
    (∃ t, exec (.subnVxVy x y) s = .next t ∧ (t.getV x).toNat = (256 + b - a) % 256 ∧
      (s.isFlagCell x = false → t.flag = if a < b then 1 else 0) ∧
      s.sameBut t (fun q => s.isV x q ∨ s.isFlag q))

/-- R83, R84: SHR and SHL of the register `SHIFT_SOURCE` names, with the bit shifted out in the flag. -/
def Obligations.ShiftsSetTheDroppedBit : Prop :=
  ∀ (x y : Nibble) (s : State),
    let op := (if s.cfg.shiftSource = .vy then s.getV y else s.getV x).toNat
    encode (.shrVxVy x y) = 0x8#4 ++ x ++ y ++ 0x6#4 ∧ encode (.shlVxVy x y) = 0x8#4 ++ x ++ y ++ 0xE#4 ∧
    (∃ t, exec (.shrVxVy x y) s = .next t ∧ (t.getV x).toNat = op / 2 ∧
      (s.isFlagCell x = false → t.flag.toNat = op % 2) ∧ s.sameBut t (fun q => s.isV x q ∨ s.isFlag q)) ∧
    (∃ t, exec (.shlVxVy x y) s = .next t ∧ (t.getV x).toNat = (2 * op) % 256 ∧
      (s.isFlagCell x = false → t.flag.toNat = if 127 < op then 1 else 0) ∧
      s.sameBut t (fun q => s.isV x q ∨ s.isFlag q))

/-- RND stores the random byte ANDed with its immediate (R85, R110). That the byte is the free value
`Config.randByte` of the count `draws`, which this execution advances so that the next has a byte of its own, is the model's
choice (log 6). -/
def Obligations.RndMasksTheDraw : Prop :=
  ∀ (x : Nibble) (nn : Byte) (s : State), encode (.rndVxByte x nn) = 0xC#4 ++ x ++ nn ∧
    ∃ t, exec (.rndVxByte x nn) s = .next t ∧ t.getV x = Config.randByte s.draws &&& nn ∧
      (∀ b, nn.getLsbD b = false → (t.getV x).getLsbD b = false) ∧ t.draws = s.draws + 1 ∧
      s.sameBut t (fun q => s.isV x q ∨ q = .draws)

/-! ### The index-register and memory family -/

/-- R86: LD I, addr. -/
def Obligations.LdILoads : Prop :=
  ∀ (nnn : Addr) (s : State), encode (.ldIAddr nnn) = 0xA#4 ++ nnn ∧
    ∃ t, exec (.ldIAddr nnn) s = .next t ∧ t.index.toNat = nnn.toNat ∧ s.sameBut t (fun q => q = .index)

/-- R87: ADD I, Vx modulo 2^16, no flag. -/
def Obligations.AddIWraps : Prop :=
  ∀ (x : Nibble) (s : State), encode (.addIVx x) = 0xF#4 ++ x ++ 0x1E#8 ∧
    ∃ t, exec (.addIVx x) s = .next t ∧ t.index.toNat = (s.index.toNat + (s.getV x).toNat) % 65536 ∧
      s.sameBut t (fun q => q = .index)

/-- R88: LD F, Vx, and its fault above 0xF. -/
def Obligations.LdFPointsAtTheGlyph : Prop :=
  ∀ (x : Nibble) (s : State),
    let d := (s.getV x).toNat
    encode (.ldFVx x) = 0xF#4 ++ x ++ 0x29#8 ∧
    (d ≤ 0xF → ∃ t, exec (.ldFVx x) s = .next t ∧ t.index.toNat = 0x050 + 5 * d ∧
      s.sameBut t (fun q => q = .index)) ∧
    (0xF < d →
      exec (.ldFVx x) s = .next { s with
        status := .faulted
        fault := some { kind := .undefinedOperand, code := 7, ia := some (s.pc - 2),
                        word := some (0xF#4 ++ x ++ 0x29#8), addr := some d, size := some 1 } })

/-- R89: LD B, Vx in both modes: the digits' values at `I` upward, all of them or, out of bounds, none. -/
def Obligations.LdBStoresTheDigits : Prop :=
  ∀ (x : Nibble) (s : State), s.memWf = true →
    let v := (s.getV x).toNat
    let I := s.index.toNat
    let digits : List Nat :=
      if s.cfg.bcdMode = .padded then [v / 100, v / 10 % 10, v % 10]
      else if v < 10 then [v] else if v < 100 then [v / 10, v % 10] else [v / 100, v / 10 % 10, v % 10]
    encode (.ldBVx x) = 0xF#4 ++ x ++ 0x33#8 ∧
    (I + digits.length ≤ 4096 →
      ∃ t, exec (.ldBVx x) s = .next t ∧
        (∀ j : Fin digits.length, (t.readByte (I + j.val)).toNat = digits[j.val]) ∧
        s.sameBut t (fun q => ∃ j, j < digits.length ∧ q = .byte (I + j))) ∧
    (4096 < I + digits.length →
      exec (.ldBVx x) s = .next { s with
        status := .faulted
        fault := some { kind := .memoryOutOfBounds, code := 4, ia := some (s.pc - 2),
                        word := some (0xF#4 ++ x ++ 0x33#8), addr := some I, size := some digits.length } })

/-- R90: LD [I], Vx stores `V[0]..V[x]` at `I` upward, all of them or, out of bounds, none; `I` is unchanged. -/
def Obligations.LdMemStoresTheRegisters : Prop :=
  ∀ (x : Nibble) (s : State), s.memWf = true →
    let I := s.index.toNat
    encode (.ldMemVx x) = 0xF#4 ++ x ++ 0x55#8 ∧
    (I + x.toNat ≤ 0xFFF →
      ∃ t, exec (.ldMemVx x) s = .next t ∧
        (∀ y : Nibble, y.toNat ≤ x.toNat → t.readByte (I + y.toNat) = s.getV y) ∧
        s.sameBut t (fun q => ∃ j, j ≤ x.toNat ∧ q = .byte (I + j))) ∧
    (0xFFF < I + x.toNat →
      exec (.ldMemVx x) s = .next { s with
        status := .faulted
        fault := some { kind := .memoryOutOfBounds, code := 4, ia := some (s.pc - 2),
                        word := some (0xF#4 ++ x ++ 0x55#8), addr := some I, size := some (x.toNat + 1) } })

/-- R91: LD Vx, [I] loads `V[0]..V[x]` from `I` upward, all of them or, out of bounds, none; `I` is unchanged. -/
def Obligations.LdMemLoadsTheRegisters : Prop :=
  ∀ (x : Nibble) (s : State),
    let I := s.index.toNat
    encode (.ldVxMem x) = 0xF#4 ++ x ++ 0x65#8 ∧
    (I + x.toNat ≤ 0xFFF →
      ∃ t, exec (.ldVxMem x) s = .next t ∧
        (∀ y : Nibble, y.toNat ≤ x.toNat → t.getV y = s.readByte (I + y.toNat)) ∧
        s.sameBut t (fun q => ∃ y : Nibble, y.toNat ≤ x.toNat ∧ s.isV y q)) ∧
    (0xFFF < I + x.toNat →
      exec (.ldVxMem x) s = .next { s with
        status := .faulted
        fault := some { kind := .memoryOutOfBounds, code := 4, ia := some (s.pc - 2),
                        word := some (0xF#4 ++ x ++ 0x65#8), addr := some I, size := some (x.toNat + 1) } })

/-- What `Fx55` stored, `Fx65` of the same range brings back, in any state whose `I` and memory are those the store left
and whatever has become of the registers (R90, R91). -/
def Obligations.StoreThenLoadRestoresRegisters : Prop :=
  ∀ (x : Nibble) (s t u : State), s.memWf = true → s.index.toNat + x.toNat ≤ 0xFFF →
    exec (.ldMemVx x) s = .next t → u.cfg = t.cfg → u.mem = t.mem → u.index = t.index →
    ∃ v, exec (.ldVxMem x) u = .next v ∧ ∀ y : Nibble, y.toNat ≤ x.toNat → v.getV y = s.getV y

/-- Self-modifying code (R44, R125): two bytes that `Fx55` stores over the next instruction are the word the very next
fetch reads. -/
def Obligations.StoreIsSeenByTheNextFetch : Prop :=
  ∀ (x y z : Nibble) (s t : State), s.memWf = true → s.index.toNat + x.toNat ≤ 0xFFF →
    exec (.ldMemVx x) s = .next t → z.toNat = y.toNat + 1 → z.toNat ≤ x.toNat →
    s.pc.toNat = s.index.toNat + y.toNat → t.fetchWord = some (wordOfBytes (s.getV y) (s.getV z))

/-! ### The timer family -/

/-- LD Vx, DT reads the time since the last delay-timer write, modulo 255 (R92), at a sample no earlier than any before it
(R109); `DT` plays no part. That the sample is `clock` plus the free value `Config.timeAdvance` of the count `draws`, and
that both fields follow it, is the model's reading (log 4, log 6). The premise is kept by every step
(StepKeepsTheInvariant). -/
def Obligations.LdDTReadsTheElapsedTime : Prop :=
  ∀ (x : Nibble) (s : State), s.tdt ≤ s.clock → encode (.ldVxDT x) = 0xF#4 ++ x ++ 0x07#8 ∧
    ∃ t now, exec (.ldVxDT x) s = .next t ∧ now = s.clock + Config.timeAdvance s.draws ∧ s.tdt ≤ now ∧
      t.clock = now ∧ t.draws = s.draws + 1 ∧ (t.getV x).toNat = (now - s.tdt) % 255 ∧
      s.sameBut t (fun q => s.isV x q ∨ q = .clock ∨ q = .draws)

/-- The timer writes store the value and stamp the time (R93, R94), a sample no earlier than any before it (R109). That
the sample is `clock` plus the free value `Config.timeAdvance` of the count `draws`, and that both fields follow it, is the
model's reading (log 4, log 6). -/
def Obligations.TimerWritesStampTheTime : Prop :=
  ∀ (x : Nibble) (s : State),
    let now := s.clock + Config.timeAdvance s.draws
    encode (.ldDTVx x) = 0xF#4 ++ x ++ 0x15#8 ∧ encode (.ldSTVx x) = 0xF#4 ++ x ++ 0x18#8 ∧
    (∃ t, exec (.ldDTVx x) s = .next t ∧ t.dt = s.getV x ∧ t.tdt = now ∧ t.clock = now ∧ t.draws = s.draws + 1 ∧
      s.sameBut t (fun q => q = .dt ∨ q = .tdt ∨ q = .clock ∨ q = .draws)) ∧
    (∃ t, exec (.ldSTVx x) s = .next t ∧ t.st = s.getV x ∧ t.tst = now ∧ t.clock = now ∧ t.draws = s.draws + 1 ∧
      s.sameBut t (fun q => q = .st ∨ q = .tst ∨ q = .clock ∨ q = .draws))

/-! ### The input family -/

/-- SKP and SKNP (R95, R96): the fault without a keypad, the fault on a code above 0xF, and the skip on the key's state,
sampled once (R111). That the answer is the free value `Config.keyPressed` of the count `draws` and the code, and that this
execution advances the count, is the model's choice (log 7, log 6). -/
def Obligations.KeySkips : Prop :=
  ∀ (x : Nibble) (s : State),
    encode (.skpVx x) = 0xE#4 ++ x ++ 0x9E#8 ∧ encode (.sknpVx x) = 0xE#4 ++ x ++ 0xA1#8 ∧
    (∀ i : Instr, i = .skpVx x ∨ i = .sknpVx x →
      (s.cfg.keypad = .absent →
        exec i s = .next { s with
          status := .faulted
          fault := some { kind := .unimplementedOpcode, code := 1, ia := some (s.pc - 2), word := some (encode i),
                          addr := none, size := none } }) ∧
      (s.cfg.keypad = .present → 0xF < (s.getV x).toNat →
        exec i s = .next { s with
          status := .faulted
          fault := some { kind := .undefinedOperand, code := 7, ia := some (s.pc - 2), word := some (encode i),
                          addr := some (s.getV x).toNat, size := some 1 } })) ∧
    (∀ k : Nibble, s.cfg.keypad = .present → k.toNat = (s.getV x).toNat →
      (∃ t, exec (.skpVx x) s = .next t ∧
        t.pc.toNat = (if Config.keyPressed s.draws k then (s.pc.toNat + 2) % 65536 else s.pc.toNat) ∧
        t.draws = s.draws + 1 ∧ s.sameBut t (fun q => q = .pc ∨ q = .draws)) ∧
      (∃ t, exec (.sknpVx x) s = .next t ∧
        t.pc.toNat = (if Config.keyPressed s.draws k then s.pc.toNat else (s.pc.toNat + 2) % 65536) ∧
        t.draws = s.draws + 1 ∧ s.sameBut t (fun q => q = .pc ∨ q = .draws)))
end

