-- ==== Sys2Proof/Laws/Decode.lean ====
section
/-! SUPPORT. The nibbles of a word (30_encoding.md R47, R48) and of the layouts it is put together from. -/

namespace Sys2Proof

/-- The bytes of a word give the word back. -/
theorem wordOfBytes_bytes (w : Word) : wordOfBytes (highByte w) (lowByte w) = w := by
  unfold wordOfBytes highByte lowByte
  ext i hi
  simp
  grind

@[simp] theorem highByte_wordOfBytes (hi lo : Byte) : highByte (wordOfBytes hi lo) = hi := by
  unfold wordOfBytes highByte
  ext i h
  simp
  grind

@[simp] theorem lowByte_wordOfBytes (hi lo : Byte) : lowByte (wordOfBytes hi lo) = lo := by
  unfold wordOfBytes lowByte
  ext i h
  simp
  grind

/-- The four nibbles of a word, straight from its bits. -/
theorem nibblesOf_bytes (w : Word) :
    nibblesOf (highByte w) (lowByte w) =
      (w.extractLsb' 12 4, w.extractLsb' 8 4, w.extractLsb' 4 4, w.extractLsb' 0 4) := by
  unfold nibblesOf
  refine Prod.ext ?_ (Prod.ext ?_ (Prod.ext ?_ ?_)) <;>
    · unfold highByte lowByte
      ext i h
      grind

/-- A word is its four nibbles, most significant first. -/
theorem nibbles_append (w : Word) :
    (w.extractLsb' 12 4 ++ w.extractLsb' 8 4 ++ w.extractLsb' 4 4 ++ w.extractLsb' 0 4 : Word) = w := by
  ext i hi
  simp
  grind

theorem nibblesOf_four (a b c d : Nibble) :
    nibblesOf (highByte (a ++ b ++ c ++ d)) (lowByte (a ++ b ++ c ++ d)) = (a, b, c, d) := by
  rw [nibblesOf_bytes]
  refine Prod.ext ?_ (Prod.ext ?_ (Prod.ext ?_ ?_)) <;>
    · ext i h
      simp
      grind

/-- A byte is its two nibbles. -/
theorem byte_split (v : Byte) : (v.extractLsb' 4 4 ++ v.extractLsb' 0 4 : Byte) = v := by
  ext i h
  simp
  grind

/-- An address field is its three nibbles. -/
theorem addr_split (a : Addr) : (a.extractLsb' 8 4 ++ a.extractLsb' 4 4 ++ a.extractLsb' 0 4 : Addr) = a := by
  ext i h
  simp
  grind

/-- The nibbles of the `XNN` layout (R49). -/
theorem nibblesOf_xnn (o x : Nibble) (nn : Byte) :
    nibblesOf (highByte (o ++ x ++ nn)) (lowByte (o ++ x ++ nn)) =
      (o, x, nn.extractLsb' 4 4, nn.extractLsb' 0 4) := by
  rw [nibblesOf_bytes]
  refine Prod.ext ?_ (Prod.ext ?_ (Prod.ext ?_ ?_)) <;>
    · ext i h
      simp
      grind

/-- The nibbles of the `ADDR` layout (R49). -/
theorem nibblesOf_addr (o : Nibble) (nnn : Addr) :
    nibblesOf (highByte (o ++ nnn)) (lowByte (o ++ nnn)) =
      (o, nnn.extractLsb' 8 4, nnn.extractLsb' 4 4, nnn.extractLsb' 0 4) := by
  rw [nibblesOf_bytes]
  refine Prod.ext ?_ (Prod.ext ?_ (Prod.ext ?_ ?_)) <;>
    · ext i h
      simp
      grind

/-! ### The opcode map by the top nibble (R51) -/

/-- A nibble is one of sixteen. -/
theorem nibble_cases (n : Nibble) :
    n = 0x0 ∨ n = 0x1 ∨ n = 0x2 ∨ n = 0x3 ∨ n = 0x4 ∨ n = 0x5 ∨ n = 0x6 ∨ n = 0x7 ∨
    n = 0x8 ∨ n = 0x9 ∨ n = 0xA ∨ n = 0xB ∨ n = 0xC ∨ n = 0xD ∨ n = 0xE ∨ n = 0xF := by
  revert n
  decide

theorem decodeNibbles_0 (h : Bool) (n1 n2 n3 : Nibble) :
    decodeNibbles h 0x0 n1 n2 n3 = decodeRow0 h n1 n2 n3 := rfl

theorem decodeNibbles_1 (h : Bool) (n1 n2 n3 : Nibble) :
    decodeNibbles h 0x1 n1 n2 n3 = some (.jpAddr (n1 ++ n2 ++ n3)) := rfl

theorem decodeNibbles_2 (h : Bool) (n1 n2 n3 : Nibble) :
    decodeNibbles h 0x2 n1 n2 n3 = some (.callAddr (n1 ++ n2 ++ n3)) := rfl

theorem decodeNibbles_3 (h : Bool) (n1 n2 n3 : Nibble) :
    decodeNibbles h 0x3 n1 n2 n3 = some (.seVxByte n1 (n2 ++ n3)) := rfl

theorem decodeNibbles_4 (h : Bool) (n1 n2 n3 : Nibble) :
    decodeNibbles h 0x4 n1 n2 n3 = some (.sneVxByte n1 (n2 ++ n3)) := rfl

theorem decodeNibbles_5 (h : Bool) (n1 n2 n3 : Nibble) :
    decodeNibbles h 0x5 n1 n2 n3 = if n3 = 0x0 then some (.seVxVy n1 n2) else none := rfl

theorem decodeNibbles_6 (h : Bool) (n1 n2 n3 : Nibble) :
    decodeNibbles h 0x6 n1 n2 n3 = some (.ldVxByte n1 (n2 ++ n3)) := rfl

theorem decodeNibbles_7 (h : Bool) (n1 n2 n3 : Nibble) :
    decodeNibbles h 0x7 n1 n2 n3 = some (.addVxByte n1 (n2 ++ n3)) := rfl

theorem decodeNibbles_8 (h : Bool) (n1 n2 n3 : Nibble) :
    decodeNibbles h 0x8 n1 n2 n3 = decodeRow8 n1 n2 n3 := rfl

theorem decodeNibbles_9 (h : Bool) (n1 n2 n3 : Nibble) :
    decodeNibbles h 0x9 n1 n2 n3 = if n3 = 0x0 then some (.sneVxVy n1 n2) else none := rfl

theorem decodeNibbles_A (h : Bool) (n1 n2 n3 : Nibble) :
    decodeNibbles h 0xA n1 n2 n3 = some (.ldIAddr (n1 ++ n2 ++ n3)) := rfl

theorem decodeNibbles_B (h : Bool) (n1 n2 n3 : Nibble) :
    decodeNibbles h 0xB n1 n2 n3 = some (.jpV0Addr (n1 ++ n2 ++ n3)) := rfl

theorem decodeNibbles_C (h : Bool) (n1 n2 n3 : Nibble) :
    decodeNibbles h 0xC n1 n2 n3 = some (.rndVxByte n1 (n2 ++ n3)) := rfl

theorem decodeNibbles_D (h : Bool) (n1 n2 n3 : Nibble) :
    decodeNibbles h 0xD n1 n2 n3 = some (.drwVxVyNibble n1 n2 n3) := rfl

theorem decodeNibbles_E (h : Bool) (n1 n2 n3 : Nibble) :
    decodeNibbles h 0xE n1 n2 n3 = decodeRowE n1 (n2 ++ n3) := rfl

theorem decodeNibbles_F (h : Bool) (n1 n2 n3 : Nibble) :
    decodeNibbles h 0xF n1 n2 n3 = decodeRowF n1 (n2 ++ n3) := rfl

/-- The decoder on a word, given its nibbles. -/
theorem decodeWord_of_nibbles {h : Bool} {w : Word} {n0 n1 n2 n3 : Nibble}
    (hw : nibblesOf (highByte w) (lowByte w) = (n0, n1, n2, n3)) :
    decodeWord h w = decodeNibbles h n0 n1 n2 n3 := by
  simp only [decodeWord, hw]

/-- The byte decoder on a word's two bytes. -/
theorem decode_bytes (cfg : Config) (w : Word) :
    decode cfg [highByte w, lowByte w] =
      match decodeWord cfg.haltOnZero w with
      | some i => .ok (i, [])
      | none => .error (.unknownOpcode w) := by
  cases h : decodeWord cfg.haltOnZero w <;> simp [decode, wordOfBytes_bytes, h]

end Sys2Proof
end

