-- ==== Sys2Proof/Laws/Memory.lean ====
section
/-! SUPPORT. Memory: a read after a write, and that every operation keeps the canonical form. -/

namespace Sys2Proof.Machine

theorem Memory.wf_cons {bg : Nat → Byte} {k : Nat} {v : Byte} {rest : List Host.Cell} :
    Memory.wf bg ((k, v) :: rest) = true ↔
      k < memSize ∧ v ≠ bg k ∧ (∀ c ∈ rest, k < c.1) ∧ Memory.wf bg rest = true := by
  simp [Memory.wf, and_assoc]

/-- No entry below the first listed address: such an address reads as the background. -/
theorem Memory.read_of_lt_all {bg : Nat → Byte} {a : Nat} :
    ∀ {m : List Host.Cell}, (∀ c ∈ m, a < c.1) → Memory.read bg m a = bg a
  | [], _ => rfl
  | (k, v) :: rest, h => by
    have hk : a < k := h (k, v) (by simp)
    have : a ≠ k := by omega
    simp only [Memory.read, this, if_false]
    exact Memory.read_of_lt_all fun c hc => h c (by simp [hc])

/-- A read after a write, in a canonical memory. -/
theorem Memory.read_write {bg : Nat → Byte} {a a' : Nat} {b : Byte} :
    ∀ {m : List Host.Cell}, Memory.wf bg m = true →
      Memory.read bg (Memory.write bg m a b) a' = if a' = a then b else Memory.read bg m a'
  | [], _ => by
    by_cases hb : b = bg a <;> by_cases h : a' = a <;> simp [Memory.write, Memory.read, hb, h]
  | (k, v) :: rest, h => by
    obtain ⟨_, _, hlt, hr⟩ := Memory.wf_cons.1 h
    have ih := Memory.read_write (a := a) (a' := a') (b := b) hr
    unfold Memory.write
    by_cases h1 : a < k
    · have hall : ∀ c ∈ (k, v) :: rest, a < c.1 := by
        intro c hc
        rcases List.mem_cons.1 hc with rfl | hc
        · exact h1
        · exact Nat.lt_trans h1 (hlt c hc)
      by_cases hb : b = bg a
      · by_cases ha : a' = a
        · subst ha
          simp [h1, hb, Memory.read_of_lt_all hall]
        · simp [h1, hb, ha]
      · by_cases ha : a' = a <;> simp [h1, hb, ha, Memory.read]
    · by_cases h2 : a = k
      · subst h2
        by_cases hb : b = bg a
        · by_cases ha : a' = a
          · subst ha
            simp [hb, Memory.read_of_lt_all hlt]
          · simp [hb, ha, Memory.read]
        · by_cases ha : a' = a <;> simp [hb, ha, Memory.read]
      · by_cases hk : a' = k
        · subst hk
          have : a' ≠ a := fun e => h2 e.symm
          simp [h1, h2, Memory.read, this]
        · simp [h1, h2, Memory.read, hk, ih]

theorem Memory.mem_write {bg : Nat → Byte} {a : Nat} {b : Byte} {c : Host.Cell} :
    ∀ {m : List Host.Cell}, c ∈ Memory.write bg m a b → c.1 = a ∨ c ∈ m
  | [], h => by
    simp only [Memory.write] at h
    split at h <;> simp_all
  | (k, v) :: rest, h => by
    have ih := @Memory.mem_write bg a b c rest
    simp only [Memory.write] at h
    split at h
    · split at h <;> simp_all
      rcases h with rfl | h <;> simp_all
    · split at h
      · split at h <;> simp_all
        rcases h with rfl | h <;> simp_all
      · rcases List.mem_cons.1 h with rfl | h
        · simp
        · rcases ih h with h | h <;> simp [h]

/-- A write to an address that exists keeps the canonical form. -/
theorem Memory.wf_write {bg : Nat → Byte} {a : Nat} {b : Byte} (ha : a < memSize) :
    ∀ {m : List Host.Cell}, Memory.wf bg m = true → Memory.wf bg (Memory.write bg m a b) = true
  | [], _ => by
    by_cases hb : b = bg a <;> simp [Memory.write, Memory.wf, hb, ha]
  | (k, v) :: rest, h => by
    obtain ⟨hk, hv, hlt, hr⟩ := Memory.wf_cons.1 h
    simp only [Memory.write]
    split
    next h1 =>
      split
      · exact h
      next hb =>
        refine Memory.wf_cons.2 ⟨ha, hb, ?_, h⟩
        intro c hc
        rcases List.mem_cons.1 hc with rfl | hc
        · exact h1
        · exact Nat.lt_trans h1 (hlt c hc)
    next h1 =>
      split
      next h2 =>
        subst h2
        split
        · exact hr
        next hb => exact Memory.wf_cons.2 ⟨ha, hb, hlt, hr⟩
      next h2 =>
        refine Memory.wf_cons.2 ⟨hk, hv, ?_, Memory.wf_write ha hr⟩
        intro c hc
        rcases Memory.mem_write hc with h | h
        · omega
        · exact hlt c h

/-- Writing consecutive bytes that all exist keeps the canonical form. -/
theorem Memory.wf_writeList {bg : Nat → Byte} :
    ∀ {bs : List Byte} {m : List Host.Cell} {a : Nat}, a + bs.length ≤ memSize →
      Memory.wf bg m = true → Memory.wf bg (Memory.writeList bg m a bs) = true
  | [], _, _, _, h => h
  | b :: bs, m, a, hl, h => by
    simp only [List.length_cons] at hl
    rw [Memory.writeList]
    exact Memory.wf_writeList (by omega) (Memory.wf_write (by omega) h)

/-- What each address reads as after consecutive bytes have been written. -/
theorem Memory.read_writeList {bg : Nat → Byte} {a' : Nat} :
    ∀ {bs : List Byte} {m : List Host.Cell} {a : Nat}, a + bs.length ≤ memSize → Memory.wf bg m = true →
      Memory.read bg (Memory.writeList bg m a bs) a' =
        if h : a ≤ a' ∧ a' < a + bs.length then bs[a' - a]'(by omega) else Memory.read bg m a'
  | [], m, a, _, _ => by
    have : ¬ (a ≤ a' ∧ a' < a + ([] : List Byte).length) := by simp
    simp [Memory.writeList]
  | b :: bs, m, a, hl, h => by
    simp only [List.length_cons] at hl
    rw [Memory.writeList, Memory.read_writeList (by omega) (Memory.wf_write (by omega) h), Memory.read_write h]
    by_cases h0 : a' = a
    · subst h0
      have : ¬ (a' + 1 ≤ a' ∧ a' < a' + 1 + bs.length) := by omega
      simp
    · by_cases h1 : a + 1 ≤ a' ∧ a' < a + 1 + bs.length
      · have h2 : a ≤ a' ∧ a' < a + (b :: bs).length := by simp only [List.length_cons]; omega
        have h3 : a' - a = (a' - (a + 1)) + 1 := by omega
        rw [dif_pos h1, dif_pos h2]
        simp only [h3, List.getElem_cons_succ]
      · have h2 : ¬ (a ≤ a' ∧ a' < a + (b :: bs).length) := by simp only [List.length_cons]; omega
        rw [dif_neg h1, dif_neg h2, if_neg h0]

@[simp] theorem Memory.length_readList {bg : Nat → Byte} {m : List Host.Cell} :
    ∀ {n a : Nat}, (Memory.readList bg m a n).length = n
  | 0, _ => rfl
  | n + 1, a => by simp [Memory.readList, Memory.length_readList]

theorem Memory.getElem_readList {bg : Nat → Byte} {m : List Host.Cell} :
    ∀ {n a k : Nat} (h : k < (Memory.readList bg m a n).length),
      (Memory.readList bg m a n)[k] = Memory.read bg m (a + k)
  | 0, a, k, h => by simp at h
  | n + 1, a, 0, h => by simp [Memory.readList]
  | n + 1, a, k + 1, h => by
    simp only [Memory.readList, List.getElem_cons_succ]
    rw [Memory.getElem_readList, Nat.add_right_comm, Nat.add_assoc]

theorem Memory.wf_drawn {bg : Nat → Byte} : ∀ {n : Nat}, n ≤ memSize → Memory.wf bg (Memory.drawn bg n) = true
  | 0, _ => rfl
  | n + 1, h => by
    simp only [Memory.drawn]
    split
    · exact Memory.wf_drawn (by omega)
    · exact Memory.wf_write (by omega) (Memory.wf_drawn (by omega))

/-- Reset's memory is canonical, in every configuration and for every program. -/
theorem Memory.wf_afterLoad (cfg : Config) (program : List Byte) :
    Memory.wf (Memory.background cfg) (Memory.afterLoad cfg program) = true := by
  have hf : Memory.wf (Memory.background cfg) (Memory.afterFill cfg) = true := by
    unfold Memory.afterFill
    split
    · rfl
    · exact Memory.wf_drawn (Nat.le_refl _)
  unfold Memory.afterLoad
  split
  next h => exact Memory.wf_writeList (by simp only [memSize, programBase, maxProgram] at *; omega) hf
  · exact hf

theorem inBounds_iff {a n : Nat} : inBounds a n = true ↔ n = 0 ∨ a + n ≤ memSize := by
  simp only [inBounds, memSize, decide_eq_true_eq]
  omega

end Sys2Proof.Machine
end

