-- ==== Sys2Proof/Laws/State.lean ====
section
/-! SUPPORT. One lemma per field per update of the state, so that no proof unfolds a record update: what the field holds
after the update, as a simp rule. -/

namespace Sys2Proof.Machine

/-! ### `advance` -/

@[simp] theorem State.cfg_advance (s : State) : (s.advance).cfg = s.cfg := rfl
@[simp] theorem State.vcell_advance (s : State) : (s.advance).vcell = s.vcell := rfl
@[simp] theorem State.flag_advance (s : State) : (s.advance).flag = s.flag := rfl
@[simp] theorem State.index_advance (s : State) : (s.advance).index = s.index := rfl
@[simp] theorem State.pc_advance (s : State) : (s.advance).pc = s.pc + 2 := rfl
@[simp] theorem State.stack_advance (s : State) : (s.advance).stack = s.stack := rfl
@[simp] theorem State.sp_advance (s : State) : (s.advance).sp = s.sp := rfl
@[simp] theorem State.dt_advance (s : State) : (s.advance).dt = s.dt := rfl
@[simp] theorem State.tdt_advance (s : State) : (s.advance).tdt = s.tdt := rfl
@[simp] theorem State.st_advance (s : State) : (s.advance).st = s.st := rfl
@[simp] theorem State.tst_advance (s : State) : (s.advance).tst = s.tst := rfl
@[simp] theorem State.pix_advance (s : State) : (s.advance).pix = s.pix := rfl
@[simp] theorem State.mem_advance (s : State) : (s.advance).mem = s.mem := rfl
@[simp] theorem State.status_advance (s : State) : (s.advance).status = s.status := rfl
@[simp] theorem State.fault_advance (s : State) : (s.advance).fault = s.fault := rfl
@[simp] theorem State.clock_advance (s : State) : (s.advance).clock = s.clock := rfl
@[simp] theorem State.draws_advance (s : State) : (s.advance).draws = s.draws := rfl
@[simp] theorem State.redraws_advance (s : State) : (s.advance).redraws = s.redraws := rfl

/-! ### `tookTime` -/

@[simp] theorem State.cfg_tookTime (s : State) : (s.tookTime).cfg = s.cfg := rfl
@[simp] theorem State.vcell_tookTime (s : State) : (s.tookTime).vcell = s.vcell := rfl
@[simp] theorem State.flag_tookTime (s : State) : (s.tookTime).flag = s.flag := rfl
@[simp] theorem State.index_tookTime (s : State) : (s.tookTime).index = s.index := rfl
@[simp] theorem State.pc_tookTime (s : State) : (s.tookTime).pc = s.pc := rfl
@[simp] theorem State.stack_tookTime (s : State) : (s.tookTime).stack = s.stack := rfl
@[simp] theorem State.sp_tookTime (s : State) : (s.tookTime).sp = s.sp := rfl
@[simp] theorem State.dt_tookTime (s : State) : (s.tookTime).dt = s.dt := rfl
@[simp] theorem State.tdt_tookTime (s : State) : (s.tookTime).tdt = s.tdt := rfl
@[simp] theorem State.st_tookTime (s : State) : (s.tookTime).st = s.st := rfl
@[simp] theorem State.tst_tookTime (s : State) : (s.tookTime).tst = s.tst := rfl
@[simp] theorem State.pix_tookTime (s : State) : (s.tookTime).pix = s.pix := rfl
@[simp] theorem State.mem_tookTime (s : State) : (s.tookTime).mem = s.mem := rfl
@[simp] theorem State.status_tookTime (s : State) : (s.tookTime).status = s.status := rfl
@[simp] theorem State.fault_tookTime (s : State) : (s.tookTime).fault = s.fault := rfl
@[simp] theorem State.clock_tookTime (s : State) : (s.tookTime).clock = s.nowSample := rfl
@[simp] theorem State.draws_tookTime (s : State) : (s.tookTime).draws = s.draws + 1 := rfl
@[simp] theorem State.redraws_tookTime (s : State) : (s.tookTime).redraws = s.redraws := rfl

/-! ### `tookDraw` -/

@[simp] theorem State.cfg_tookDraw (s : State) : (s.tookDraw).cfg = s.cfg := rfl
@[simp] theorem State.vcell_tookDraw (s : State) : (s.tookDraw).vcell = s.vcell := rfl
@[simp] theorem State.flag_tookDraw (s : State) : (s.tookDraw).flag = s.flag := rfl
@[simp] theorem State.index_tookDraw (s : State) : (s.tookDraw).index = s.index := rfl
@[simp] theorem State.pc_tookDraw (s : State) : (s.tookDraw).pc = s.pc := rfl
@[simp] theorem State.stack_tookDraw (s : State) : (s.tookDraw).stack = s.stack := rfl
@[simp] theorem State.sp_tookDraw (s : State) : (s.tookDraw).sp = s.sp := rfl
@[simp] theorem State.dt_tookDraw (s : State) : (s.tookDraw).dt = s.dt := rfl
@[simp] theorem State.tdt_tookDraw (s : State) : (s.tookDraw).tdt = s.tdt := rfl
@[simp] theorem State.st_tookDraw (s : State) : (s.tookDraw).st = s.st := rfl
@[simp] theorem State.tst_tookDraw (s : State) : (s.tookDraw).tst = s.tst := rfl
@[simp] theorem State.pix_tookDraw (s : State) : (s.tookDraw).pix = s.pix := rfl
@[simp] theorem State.mem_tookDraw (s : State) : (s.tookDraw).mem = s.mem := rfl
@[simp] theorem State.status_tookDraw (s : State) : (s.tookDraw).status = s.status := rfl
@[simp] theorem State.fault_tookDraw (s : State) : (s.tookDraw).fault = s.fault := rfl
@[simp] theorem State.clock_tookDraw (s : State) : (s.tookDraw).clock = s.clock := rfl
@[simp] theorem State.draws_tookDraw (s : State) : (s.tookDraw).draws = s.draws + 1 := rfl
@[simp] theorem State.redraws_tookDraw (s : State) : (s.tookDraw).redraws = s.redraws := rfl

/-! ### `emitRedraw` -/

@[simp] theorem State.cfg_emitRedraw (s : State) : (s.emitRedraw).cfg = s.cfg := rfl
@[simp] theorem State.vcell_emitRedraw (s : State) : (s.emitRedraw).vcell = s.vcell := rfl
@[simp] theorem State.flag_emitRedraw (s : State) : (s.emitRedraw).flag = s.flag := rfl
@[simp] theorem State.index_emitRedraw (s : State) : (s.emitRedraw).index = s.index := rfl
@[simp] theorem State.pc_emitRedraw (s : State) : (s.emitRedraw).pc = s.pc := rfl
@[simp] theorem State.stack_emitRedraw (s : State) : (s.emitRedraw).stack = s.stack := rfl
@[simp] theorem State.sp_emitRedraw (s : State) : (s.emitRedraw).sp = s.sp := rfl
@[simp] theorem State.dt_emitRedraw (s : State) : (s.emitRedraw).dt = s.dt := rfl
@[simp] theorem State.tdt_emitRedraw (s : State) : (s.emitRedraw).tdt = s.tdt := rfl
@[simp] theorem State.st_emitRedraw (s : State) : (s.emitRedraw).st = s.st := rfl
@[simp] theorem State.tst_emitRedraw (s : State) : (s.emitRedraw).tst = s.tst := rfl
@[simp] theorem State.pix_emitRedraw (s : State) : (s.emitRedraw).pix = s.pix := rfl
@[simp] theorem State.mem_emitRedraw (s : State) : (s.emitRedraw).mem = s.mem := rfl
@[simp] theorem State.status_emitRedraw (s : State) : (s.emitRedraw).status = s.status := rfl
@[simp] theorem State.fault_emitRedraw (s : State) : (s.emitRedraw).fault = s.fault := rfl
@[simp] theorem State.clock_emitRedraw (s : State) : (s.emitRedraw).clock = s.clock := rfl
@[simp] theorem State.draws_emitRedraw (s : State) : (s.emitRedraw).draws = s.draws := rfl
@[simp] theorem State.redraws_emitRedraw (s : State) : (s.emitRedraw).redraws = s.redraws + 1 := rfl

/-! ### `setFlag` -/

@[simp] theorem State.cfg_setFlag (s : State) (b : Bool) : (s.setFlag b).cfg = s.cfg := rfl
@[simp] theorem State.vcell_setFlag (s : State) (b : Bool) : (s.setFlag b).vcell = s.vcell := rfl
@[simp] theorem State.flag_setFlag (s : State) (b : Bool) : (s.setFlag b).flag = if b then 1 else 0 := rfl
@[simp] theorem State.index_setFlag (s : State) (b : Bool) : (s.setFlag b).index = s.index := rfl
@[simp] theorem State.pc_setFlag (s : State) (b : Bool) : (s.setFlag b).pc = s.pc := rfl
@[simp] theorem State.stack_setFlag (s : State) (b : Bool) : (s.setFlag b).stack = s.stack := rfl
@[simp] theorem State.sp_setFlag (s : State) (b : Bool) : (s.setFlag b).sp = s.sp := rfl
@[simp] theorem State.dt_setFlag (s : State) (b : Bool) : (s.setFlag b).dt = s.dt := rfl
@[simp] theorem State.tdt_setFlag (s : State) (b : Bool) : (s.setFlag b).tdt = s.tdt := rfl
@[simp] theorem State.st_setFlag (s : State) (b : Bool) : (s.setFlag b).st = s.st := rfl
@[simp] theorem State.tst_setFlag (s : State) (b : Bool) : (s.setFlag b).tst = s.tst := rfl
@[simp] theorem State.pix_setFlag (s : State) (b : Bool) : (s.setFlag b).pix = s.pix := rfl
@[simp] theorem State.mem_setFlag (s : State) (b : Bool) : (s.setFlag b).mem = s.mem := rfl
@[simp] theorem State.status_setFlag (s : State) (b : Bool) : (s.setFlag b).status = s.status := rfl
@[simp] theorem State.fault_setFlag (s : State) (b : Bool) : (s.setFlag b).fault = s.fault := rfl
@[simp] theorem State.clock_setFlag (s : State) (b : Bool) : (s.setFlag b).clock = s.clock := rfl
@[simp] theorem State.draws_setFlag (s : State) (b : Bool) : (s.setFlag b).draws = s.draws := rfl
@[simp] theorem State.redraws_setFlag (s : State) (b : Bool) : (s.setFlag b).redraws = s.redraws := rfl

/-! ### `writeDelay` -/

@[simp] theorem State.cfg_writeDelay (s : State) (v : Byte) (t : Nat) : (s.writeDelay v t).cfg = s.cfg := rfl
@[simp] theorem State.vcell_writeDelay (s : State) (v : Byte) (t : Nat) : (s.writeDelay v t).vcell = s.vcell := rfl
@[simp] theorem State.flag_writeDelay (s : State) (v : Byte) (t : Nat) : (s.writeDelay v t).flag = s.flag := rfl
@[simp] theorem State.index_writeDelay (s : State) (v : Byte) (t : Nat) : (s.writeDelay v t).index = s.index := rfl
@[simp] theorem State.pc_writeDelay (s : State) (v : Byte) (t : Nat) : (s.writeDelay v t).pc = s.pc := rfl
@[simp] theorem State.stack_writeDelay (s : State) (v : Byte) (t : Nat) : (s.writeDelay v t).stack = s.stack := rfl
@[simp] theorem State.sp_writeDelay (s : State) (v : Byte) (t : Nat) : (s.writeDelay v t).sp = s.sp := rfl
@[simp] theorem State.dt_writeDelay (s : State) (v : Byte) (t : Nat) : (s.writeDelay v t).dt = v := rfl
@[simp] theorem State.tdt_writeDelay (s : State) (v : Byte) (t : Nat) : (s.writeDelay v t).tdt = t := rfl
@[simp] theorem State.st_writeDelay (s : State) (v : Byte) (t : Nat) : (s.writeDelay v t).st = s.st := rfl
@[simp] theorem State.tst_writeDelay (s : State) (v : Byte) (t : Nat) : (s.writeDelay v t).tst = s.tst := rfl
@[simp] theorem State.pix_writeDelay (s : State) (v : Byte) (t : Nat) : (s.writeDelay v t).pix = s.pix := rfl
@[simp] theorem State.mem_writeDelay (s : State) (v : Byte) (t : Nat) : (s.writeDelay v t).mem = s.mem := rfl
@[simp] theorem State.status_writeDelay (s : State) (v : Byte) (t : Nat) : (s.writeDelay v t).status = s.status := rfl
@[simp] theorem State.fault_writeDelay (s : State) (v : Byte) (t : Nat) : (s.writeDelay v t).fault = s.fault := rfl
@[simp] theorem State.clock_writeDelay (s : State) (v : Byte) (t : Nat) : (s.writeDelay v t).clock = s.clock := rfl
@[simp] theorem State.draws_writeDelay (s : State) (v : Byte) (t : Nat) : (s.writeDelay v t).draws = s.draws := rfl
@[simp] theorem State.redraws_writeDelay (s : State) (v : Byte) (t : Nat) : (s.writeDelay v t).redraws = s.redraws := rfl

/-! ### `writeSound` -/

@[simp] theorem State.cfg_writeSound (s : State) (v : Byte) (t : Nat) : (s.writeSound v t).cfg = s.cfg := rfl
@[simp] theorem State.vcell_writeSound (s : State) (v : Byte) (t : Nat) : (s.writeSound v t).vcell = s.vcell := rfl
@[simp] theorem State.flag_writeSound (s : State) (v : Byte) (t : Nat) : (s.writeSound v t).flag = s.flag := rfl
@[simp] theorem State.index_writeSound (s : State) (v : Byte) (t : Nat) : (s.writeSound v t).index = s.index := rfl
@[simp] theorem State.pc_writeSound (s : State) (v : Byte) (t : Nat) : (s.writeSound v t).pc = s.pc := rfl
@[simp] theorem State.stack_writeSound (s : State) (v : Byte) (t : Nat) : (s.writeSound v t).stack = s.stack := rfl
@[simp] theorem State.sp_writeSound (s : State) (v : Byte) (t : Nat) : (s.writeSound v t).sp = s.sp := rfl
@[simp] theorem State.dt_writeSound (s : State) (v : Byte) (t : Nat) : (s.writeSound v t).dt = s.dt := rfl
@[simp] theorem State.tdt_writeSound (s : State) (v : Byte) (t : Nat) : (s.writeSound v t).tdt = s.tdt := rfl
@[simp] theorem State.st_writeSound (s : State) (v : Byte) (t : Nat) : (s.writeSound v t).st = v := rfl
@[simp] theorem State.tst_writeSound (s : State) (v : Byte) (t : Nat) : (s.writeSound v t).tst = t := rfl
@[simp] theorem State.pix_writeSound (s : State) (v : Byte) (t : Nat) : (s.writeSound v t).pix = s.pix := rfl
@[simp] theorem State.mem_writeSound (s : State) (v : Byte) (t : Nat) : (s.writeSound v t).mem = s.mem := rfl
@[simp] theorem State.status_writeSound (s : State) (v : Byte) (t : Nat) : (s.writeSound v t).status = s.status := rfl
@[simp] theorem State.fault_writeSound (s : State) (v : Byte) (t : Nat) : (s.writeSound v t).fault = s.fault := rfl
@[simp] theorem State.clock_writeSound (s : State) (v : Byte) (t : Nat) : (s.writeSound v t).clock = s.clock := rfl
@[simp] theorem State.draws_writeSound (s : State) (v : Byte) (t : Nat) : (s.writeSound v t).draws = s.draws := rfl
@[simp] theorem State.redraws_writeSound (s : State) (v : Byte) (t : Nat) : (s.writeSound v t).redraws = s.redraws := rfl

/-! ### `raise` -/

@[simp] theorem State.cfg_raise (s : State) (k : FaultKind) (ia w : Option Word) (a n : Option Nat) : (s.raise k ia w a n).cfg = s.cfg := rfl
@[simp] theorem State.vcell_raise (s : State) (k : FaultKind) (ia w : Option Word) (a n : Option Nat) : (s.raise k ia w a n).vcell = s.vcell := rfl
@[simp] theorem State.flag_raise (s : State) (k : FaultKind) (ia w : Option Word) (a n : Option Nat) : (s.raise k ia w a n).flag = s.flag := rfl
@[simp] theorem State.index_raise (s : State) (k : FaultKind) (ia w : Option Word) (a n : Option Nat) : (s.raise k ia w a n).index = s.index := rfl
@[simp] theorem State.pc_raise (s : State) (k : FaultKind) (ia w : Option Word) (a n : Option Nat) : (s.raise k ia w a n).pc = s.pc := rfl
@[simp] theorem State.stack_raise (s : State) (k : FaultKind) (ia w : Option Word) (a n : Option Nat) : (s.raise k ia w a n).stack = s.stack := rfl
@[simp] theorem State.sp_raise (s : State) (k : FaultKind) (ia w : Option Word) (a n : Option Nat) : (s.raise k ia w a n).sp = s.sp := rfl
@[simp] theorem State.dt_raise (s : State) (k : FaultKind) (ia w : Option Word) (a n : Option Nat) : (s.raise k ia w a n).dt = s.dt := rfl
@[simp] theorem State.tdt_raise (s : State) (k : FaultKind) (ia w : Option Word) (a n : Option Nat) : (s.raise k ia w a n).tdt = s.tdt := rfl
@[simp] theorem State.st_raise (s : State) (k : FaultKind) (ia w : Option Word) (a n : Option Nat) : (s.raise k ia w a n).st = s.st := rfl
@[simp] theorem State.tst_raise (s : State) (k : FaultKind) (ia w : Option Word) (a n : Option Nat) : (s.raise k ia w a n).tst = s.tst := rfl
@[simp] theorem State.pix_raise (s : State) (k : FaultKind) (ia w : Option Word) (a n : Option Nat) : (s.raise k ia w a n).pix = s.pix := rfl
@[simp] theorem State.mem_raise (s : State) (k : FaultKind) (ia w : Option Word) (a n : Option Nat) : (s.raise k ia w a n).mem = s.mem := rfl
@[simp] theorem State.status_raise (s : State) (k : FaultKind) (ia w : Option Word) (a n : Option Nat) : (s.raise k ia w a n).status = .faulted := rfl
@[simp] theorem State.fault_raise (s : State) (k : FaultKind) (ia w : Option Word) (a n : Option Nat) : (s.raise k ia w a n).fault = some (faultRecord k ia w a n) := rfl
@[simp] theorem State.clock_raise (s : State) (k : FaultKind) (ia w : Option Word) (a n : Option Nat) : (s.raise k ia w a n).clock = s.clock := rfl
@[simp] theorem State.draws_raise (s : State) (k : FaultKind) (ia w : Option Word) (a n : Option Nat) : (s.raise k ia w a n).draws = s.draws := rfl
@[simp] theorem State.redraws_raise (s : State) (k : FaultKind) (ia w : Option Word) (a n : Option Nat) : (s.raise k ia w a n).redraws = s.redraws := rfl

/-! ### `raiseFetch` -/

@[simp] theorem State.cfg_raiseFetch (s : State) : (s.raiseFetch).cfg = s.cfg := rfl
@[simp] theorem State.vcell_raiseFetch (s : State) : (s.raiseFetch).vcell = s.vcell := rfl
@[simp] theorem State.flag_raiseFetch (s : State) : (s.raiseFetch).flag = s.flag := rfl
@[simp] theorem State.index_raiseFetch (s : State) : (s.raiseFetch).index = s.index := rfl
@[simp] theorem State.pc_raiseFetch (s : State) : (s.raiseFetch).pc = s.pc := rfl
@[simp] theorem State.stack_raiseFetch (s : State) : (s.raiseFetch).stack = s.stack := rfl
@[simp] theorem State.sp_raiseFetch (s : State) : (s.raiseFetch).sp = s.sp := rfl
@[simp] theorem State.dt_raiseFetch (s : State) : (s.raiseFetch).dt = s.dt := rfl
@[simp] theorem State.tdt_raiseFetch (s : State) : (s.raiseFetch).tdt = s.tdt := rfl
@[simp] theorem State.st_raiseFetch (s : State) : (s.raiseFetch).st = s.st := rfl
@[simp] theorem State.tst_raiseFetch (s : State) : (s.raiseFetch).tst = s.tst := rfl
@[simp] theorem State.pix_raiseFetch (s : State) : (s.raiseFetch).pix = s.pix := rfl
@[simp] theorem State.mem_raiseFetch (s : State) : (s.raiseFetch).mem = s.mem := rfl
@[simp] theorem State.status_raiseFetch (s : State) : (s.raiseFetch).status = .faulted := rfl
@[simp] theorem State.fault_raiseFetch (s : State) : (s.raiseFetch).fault = some (faultRecord .memoryOutOfBounds (some s.pc) none (some s.pc.toNat) (some 2)) := rfl
@[simp] theorem State.clock_raiseFetch (s : State) : (s.raiseFetch).clock = s.clock := rfl
@[simp] theorem State.draws_raiseFetch (s : State) : (s.raiseFetch).draws = s.draws := rfl
@[simp] theorem State.redraws_raiseFetch (s : State) : (s.raiseFetch).redraws = s.redraws := rfl

/-! ### `raiseUnknown` -/

@[simp] theorem State.cfg_raiseUnknown (s : State) (w : Word) : (s.raiseUnknown w).cfg = s.cfg := rfl
@[simp] theorem State.vcell_raiseUnknown (s : State) (w : Word) : (s.raiseUnknown w).vcell = s.vcell := rfl
@[simp] theorem State.flag_raiseUnknown (s : State) (w : Word) : (s.raiseUnknown w).flag = s.flag := rfl
@[simp] theorem State.index_raiseUnknown (s : State) (w : Word) : (s.raiseUnknown w).index = s.index := rfl
@[simp] theorem State.pc_raiseUnknown (s : State) (w : Word) : (s.raiseUnknown w).pc = s.pc := rfl
@[simp] theorem State.stack_raiseUnknown (s : State) (w : Word) : (s.raiseUnknown w).stack = s.stack := rfl
@[simp] theorem State.sp_raiseUnknown (s : State) (w : Word) : (s.raiseUnknown w).sp = s.sp := rfl
@[simp] theorem State.dt_raiseUnknown (s : State) (w : Word) : (s.raiseUnknown w).dt = s.dt := rfl
@[simp] theorem State.tdt_raiseUnknown (s : State) (w : Word) : (s.raiseUnknown w).tdt = s.tdt := rfl
@[simp] theorem State.st_raiseUnknown (s : State) (w : Word) : (s.raiseUnknown w).st = s.st := rfl
@[simp] theorem State.tst_raiseUnknown (s : State) (w : Word) : (s.raiseUnknown w).tst = s.tst := rfl
@[simp] theorem State.pix_raiseUnknown (s : State) (w : Word) : (s.raiseUnknown w).pix = s.pix := rfl
@[simp] theorem State.mem_raiseUnknown (s : State) (w : Word) : (s.raiseUnknown w).mem = s.mem := rfl
@[simp] theorem State.status_raiseUnknown (s : State) (w : Word) : (s.raiseUnknown w).status = .faulted := rfl
@[simp] theorem State.fault_raiseUnknown (s : State) (w : Word) : (s.raiseUnknown w).fault = some (faultRecord .unknownOpcode (some s.instrAddr) (some w) none none) := rfl
@[simp] theorem State.clock_raiseUnknown (s : State) (w : Word) : (s.raiseUnknown w).clock = s.clock := rfl
@[simp] theorem State.draws_raiseUnknown (s : State) (w : Word) : (s.raiseUnknown w).draws = s.draws := rfl
@[simp] theorem State.redraws_raiseUnknown (s : State) (w : Word) : (s.raiseUnknown w).redraws = s.redraws := rfl

/-! ### `setV` -/

@[simp] theorem State.cfg_setV (s : State) (x : Nibble) (v : Byte) : (s.setV x v).cfg = s.cfg := by
  unfold State.setV; split <;> rfl
@[simp] theorem State.flag_setV (s : State) (x : Nibble) (v : Byte) : (s.setV x v).flag = if s.isFlagCell x then v else s.flag := by
  unfold State.setV; split <;> simp_all
@[simp] theorem State.index_setV (s : State) (x : Nibble) (v : Byte) : (s.setV x v).index = s.index := by
  unfold State.setV; split <;> rfl
@[simp] theorem State.pc_setV (s : State) (x : Nibble) (v : Byte) : (s.setV x v).pc = s.pc := by
  unfold State.setV; split <;> rfl
@[simp] theorem State.stack_setV (s : State) (x : Nibble) (v : Byte) : (s.setV x v).stack = s.stack := by
  unfold State.setV; split <;> rfl
@[simp] theorem State.sp_setV (s : State) (x : Nibble) (v : Byte) : (s.setV x v).sp = s.sp := by
  unfold State.setV; split <;> rfl
@[simp] theorem State.dt_setV (s : State) (x : Nibble) (v : Byte) : (s.setV x v).dt = s.dt := by
  unfold State.setV; split <;> rfl
@[simp] theorem State.tdt_setV (s : State) (x : Nibble) (v : Byte) : (s.setV x v).tdt = s.tdt := by
  unfold State.setV; split <;> rfl
@[simp] theorem State.st_setV (s : State) (x : Nibble) (v : Byte) : (s.setV x v).st = s.st := by
  unfold State.setV; split <;> rfl
@[simp] theorem State.tst_setV (s : State) (x : Nibble) (v : Byte) : (s.setV x v).tst = s.tst := by
  unfold State.setV; split <;> rfl
@[simp] theorem State.pix_setV (s : State) (x : Nibble) (v : Byte) : (s.setV x v).pix = s.pix := by
  unfold State.setV; split <;> rfl
@[simp] theorem State.mem_setV (s : State) (x : Nibble) (v : Byte) : (s.setV x v).mem = s.mem := by
  unfold State.setV; split <;> rfl
@[simp] theorem State.status_setV (s : State) (x : Nibble) (v : Byte) : (s.setV x v).status = s.status := by
  unfold State.setV; split <;> rfl
@[simp] theorem State.fault_setV (s : State) (x : Nibble) (v : Byte) : (s.setV x v).fault = s.fault := by
  unfold State.setV; split <;> rfl
@[simp] theorem State.clock_setV (s : State) (x : Nibble) (v : Byte) : (s.setV x v).clock = s.clock := by
  unfold State.setV; split <;> rfl
@[simp] theorem State.draws_setV (s : State) (x : Nibble) (v : Byte) : (s.setV x v).draws = s.draws := by
  unfold State.setV; split <;> rfl
@[simp] theorem State.redraws_setV (s : State) (x : Nibble) (v : Byte) : (s.setV x v).redraws = s.redraws := by
  unfold State.setV; split <;> rfl

/-! ### `setFlagThenV` -/

@[simp] theorem State.cfg_setFlagThenV (s : State) (x : Nibble) (b : Bool) (v : Byte) : (s.setFlagThenV x b v).cfg = s.cfg := by
  simp [State.setFlagThenV]
@[simp] theorem State.index_setFlagThenV (s : State) (x : Nibble) (b : Bool) (v : Byte) : (s.setFlagThenV x b v).index = s.index := by
  simp [State.setFlagThenV]
@[simp] theorem State.pc_setFlagThenV (s : State) (x : Nibble) (b : Bool) (v : Byte) : (s.setFlagThenV x b v).pc = s.pc := by
  simp [State.setFlagThenV]
@[simp] theorem State.stack_setFlagThenV (s : State) (x : Nibble) (b : Bool) (v : Byte) : (s.setFlagThenV x b v).stack = s.stack := by
  simp [State.setFlagThenV]
@[simp] theorem State.sp_setFlagThenV (s : State) (x : Nibble) (b : Bool) (v : Byte) : (s.setFlagThenV x b v).sp = s.sp := by
  simp [State.setFlagThenV]
@[simp] theorem State.dt_setFlagThenV (s : State) (x : Nibble) (b : Bool) (v : Byte) : (s.setFlagThenV x b v).dt = s.dt := by
  simp [State.setFlagThenV]
@[simp] theorem State.tdt_setFlagThenV (s : State) (x : Nibble) (b : Bool) (v : Byte) : (s.setFlagThenV x b v).tdt = s.tdt := by
  simp [State.setFlagThenV]
@[simp] theorem State.st_setFlagThenV (s : State) (x : Nibble) (b : Bool) (v : Byte) : (s.setFlagThenV x b v).st = s.st := by
  simp [State.setFlagThenV]
@[simp] theorem State.tst_setFlagThenV (s : State) (x : Nibble) (b : Bool) (v : Byte) : (s.setFlagThenV x b v).tst = s.tst := by
  simp [State.setFlagThenV]
@[simp] theorem State.pix_setFlagThenV (s : State) (x : Nibble) (b : Bool) (v : Byte) : (s.setFlagThenV x b v).pix = s.pix := by
  simp [State.setFlagThenV]
@[simp] theorem State.mem_setFlagThenV (s : State) (x : Nibble) (b : Bool) (v : Byte) : (s.setFlagThenV x b v).mem = s.mem := by
  simp [State.setFlagThenV]
@[simp] theorem State.status_setFlagThenV (s : State) (x : Nibble) (b : Bool) (v : Byte) : (s.setFlagThenV x b v).status = s.status := by
  simp [State.setFlagThenV]
@[simp] theorem State.fault_setFlagThenV (s : State) (x : Nibble) (b : Bool) (v : Byte) : (s.setFlagThenV x b v).fault = s.fault := by
  simp [State.setFlagThenV]
@[simp] theorem State.clock_setFlagThenV (s : State) (x : Nibble) (b : Bool) (v : Byte) : (s.setFlagThenV x b v).clock = s.clock := by
  simp [State.setFlagThenV]
@[simp] theorem State.draws_setFlagThenV (s : State) (x : Nibble) (b : Bool) (v : Byte) : (s.setFlagThenV x b v).draws = s.draws := by
  simp [State.setFlagThenV]
@[simp] theorem State.redraws_setFlagThenV (s : State) (x : Nibble) (b : Bool) (v : Byte) : (s.setFlagThenV x b v).redraws = s.redraws := by
  simp [State.setFlagThenV]

/-! ### `skipIf` -/

@[simp] theorem State.cfg_skipIf (s : State) (c : Bool) : (s.skipIf c).cfg = s.cfg := by
  cases c <;> rfl
@[simp] theorem State.vcell_skipIf (s : State) (c : Bool) : (s.skipIf c).vcell = s.vcell := by
  cases c <;> rfl
@[simp] theorem State.flag_skipIf (s : State) (c : Bool) : (s.skipIf c).flag = s.flag := by
  cases c <;> rfl
@[simp] theorem State.index_skipIf (s : State) (c : Bool) : (s.skipIf c).index = s.index := by
  cases c <;> rfl
@[simp] theorem State.pc_skipIf (s : State) (c : Bool) : (s.skipIf c).pc = if c then s.pc + 2 else s.pc := by
  cases c <;> rfl
@[simp] theorem State.stack_skipIf (s : State) (c : Bool) : (s.skipIf c).stack = s.stack := by
  cases c <;> rfl
@[simp] theorem State.sp_skipIf (s : State) (c : Bool) : (s.skipIf c).sp = s.sp := by
  cases c <;> rfl
@[simp] theorem State.dt_skipIf (s : State) (c : Bool) : (s.skipIf c).dt = s.dt := by
  cases c <;> rfl
@[simp] theorem State.tdt_skipIf (s : State) (c : Bool) : (s.skipIf c).tdt = s.tdt := by
  cases c <;> rfl
@[simp] theorem State.st_skipIf (s : State) (c : Bool) : (s.skipIf c).st = s.st := by
  cases c <;> rfl
@[simp] theorem State.tst_skipIf (s : State) (c : Bool) : (s.skipIf c).tst = s.tst := by
  cases c <;> rfl
@[simp] theorem State.pix_skipIf (s : State) (c : Bool) : (s.skipIf c).pix = s.pix := by
  cases c <;> rfl
@[simp] theorem State.mem_skipIf (s : State) (c : Bool) : (s.skipIf c).mem = s.mem := by
  cases c <;> rfl
@[simp] theorem State.status_skipIf (s : State) (c : Bool) : (s.skipIf c).status = s.status := by
  cases c <;> rfl
@[simp] theorem State.fault_skipIf (s : State) (c : Bool) : (s.skipIf c).fault = s.fault := by
  cases c <;> rfl
@[simp] theorem State.clock_skipIf (s : State) (c : Bool) : (s.skipIf c).clock = s.clock := by
  cases c <;> rfl
@[simp] theorem State.draws_skipIf (s : State) (c : Bool) : (s.skipIf c).draws = s.draws := by
  cases c <;> rfl
@[simp] theorem State.redraws_skipIf (s : State) (c : Bool) : (s.skipIf c).redraws = s.redraws := by
  cases c <;> rfl

/-! ### Reads that an update leaves alone -/

@[simp] theorem State.getV_advance (s : State) (y : Nibble) : (s.advance).getV y = s.getV y := rfl
@[simp] theorem State.isFlagCell_advance (s : State) (y : Nibble) : (s.advance).isFlagCell y = s.isFlagCell y := rfl
@[simp] theorem State.readByte_advance (s : State) (addr : Nat) : (s.advance).readByte addr = s.readByte addr := rfl
@[simp] theorem State.getV_tookTime (s : State) (y : Nibble) : (s.tookTime).getV y = s.getV y := rfl
@[simp] theorem State.isFlagCell_tookTime (s : State) (y : Nibble) : (s.tookTime).isFlagCell y = s.isFlagCell y := rfl
@[simp] theorem State.readByte_tookTime (s : State) (addr : Nat) : (s.tookTime).readByte addr = s.readByte addr := rfl
@[simp] theorem State.getV_tookDraw (s : State) (y : Nibble) : (s.tookDraw).getV y = s.getV y := rfl
@[simp] theorem State.isFlagCell_tookDraw (s : State) (y : Nibble) : (s.tookDraw).isFlagCell y = s.isFlagCell y := rfl
@[simp] theorem State.readByte_tookDraw (s : State) (addr : Nat) : (s.tookDraw).readByte addr = s.readByte addr := rfl
@[simp] theorem State.getV_emitRedraw (s : State) (y : Nibble) : (s.emitRedraw).getV y = s.getV y := rfl
@[simp] theorem State.isFlagCell_emitRedraw (s : State) (y : Nibble) : (s.emitRedraw).isFlagCell y = s.isFlagCell y := rfl
@[simp] theorem State.readByte_emitRedraw (s : State) (addr : Nat) : (s.emitRedraw).readByte addr = s.readByte addr := rfl
@[simp] theorem State.isFlagCell_setFlag (s : State) (b : Bool) (y : Nibble) : (s.setFlag b).isFlagCell y = s.isFlagCell y := rfl
@[simp] theorem State.readByte_setFlag (s : State) (b : Bool) (a : Nat) : (s.setFlag b).readByte a = s.readByte a := rfl
@[simp] theorem State.getV_writeDelay (s : State) (v : Byte) (t : Nat) (y : Nibble) : (s.writeDelay v t).getV y = s.getV y := rfl
@[simp] theorem State.isFlagCell_writeDelay (s : State) (v : Byte) (t : Nat) (y : Nibble) : (s.writeDelay v t).isFlagCell y = s.isFlagCell y := rfl
@[simp] theorem State.readByte_writeDelay (s : State) (v : Byte) (t : Nat) (addr : Nat) : (s.writeDelay v t).readByte addr = s.readByte addr := rfl
@[simp] theorem State.getV_writeSound (s : State) (v : Byte) (t : Nat) (y : Nibble) : (s.writeSound v t).getV y = s.getV y := rfl
@[simp] theorem State.isFlagCell_writeSound (s : State) (v : Byte) (t : Nat) (y : Nibble) : (s.writeSound v t).isFlagCell y = s.isFlagCell y := rfl
@[simp] theorem State.readByte_writeSound (s : State) (v : Byte) (t : Nat) (addr : Nat) : (s.writeSound v t).readByte addr = s.readByte addr := rfl
@[simp] theorem State.getV_raise (s : State) (k : FaultKind) (ia w : Option Word) (a n : Option Nat) (y : Nibble) : (s.raise k ia w a n).getV y = s.getV y := rfl
@[simp] theorem State.isFlagCell_raise (s : State) (k : FaultKind) (ia w : Option Word) (a n : Option Nat) (y : Nibble) : (s.raise k ia w a n).isFlagCell y = s.isFlagCell y := rfl
@[simp] theorem State.readByte_raise (s : State) (k : FaultKind) (ia w : Option Word) (a n : Option Nat) (addr : Nat) : (s.raise k ia w a n).readByte addr = s.readByte addr := rfl
@[simp] theorem State.getV_raiseFetch (s : State) (y : Nibble) : (s.raiseFetch).getV y = s.getV y := rfl
@[simp] theorem State.isFlagCell_raiseFetch (s : State) (y : Nibble) : (s.raiseFetch).isFlagCell y = s.isFlagCell y := rfl
@[simp] theorem State.readByte_raiseFetch (s : State) (addr : Nat) : (s.raiseFetch).readByte addr = s.readByte addr := rfl
@[simp] theorem State.getV_raiseUnknown (s : State) (w : Word) (y : Nibble) : (s.raiseUnknown w).getV y = s.getV y := rfl
@[simp] theorem State.isFlagCell_raiseUnknown (s : State) (w : Word) (y : Nibble) : (s.raiseUnknown w).isFlagCell y = s.isFlagCell y := rfl
@[simp] theorem State.readByte_raiseUnknown (s : State) (w : Word) (addr : Nat) : (s.raiseUnknown w).readByte addr = s.readByte addr := rfl
@[simp] theorem State.isFlagCell_setV (s : State) (x : Nibble) (v : Byte) (y : Nibble) : (s.setV x v).isFlagCell y = s.isFlagCell y := by
  simp [State.isFlagCell]
@[simp] theorem State.readByte_setV (s : State) (x : Nibble) (v : Byte) (a : Nat) : (s.setV x v).readByte a = s.readByte a := by
  simp [State.readByte]
@[simp] theorem State.isFlagCell_setFlagThenV (s : State) (x : Nibble) (b : Bool) (v : Byte) (y : Nibble) : (s.setFlagThenV x b v).isFlagCell y = s.isFlagCell y := by
  simp [State.isFlagCell]
@[simp] theorem State.readByte_setFlagThenV (s : State) (x : Nibble) (b : Bool) (v : Byte) (a : Nat) : (s.setFlagThenV x b v).readByte a = s.readByte a := by
  simp [State.readByte]
@[simp] theorem State.getV_skipIf (s : State) (c : Bool) (y : Nibble) : (s.skipIf c).getV y = s.getV y := by
  cases c <;> rfl
@[simp] theorem State.isFlagCell_skipIf (s : State) (c : Bool) (y : Nibble) : (s.skipIf c).isFlagCell y = s.isFlagCell y := by
  cases c <;> rfl
@[simp] theorem State.readByte_skipIf (s : State) (c : Bool) (addr : Nat) : (s.skipIf c).readByte addr = s.readByte addr := by
  cases c <;> rfl

end Sys2Proof.Machine
end

