-- ==== Sys2Proof/Laws/Ops.lean ====
section
/-! SUPPORT. One lemma per shared operation: everything it can do. -/

namespace Sys2Proof.Machine

/-! ### Registers -/

theorem State.isFlagCell_iff {s : State} {x : Nibble} :
    s.isFlagCell x = true ↔ s.cfg.flagAlias = .vf ∧ x = 15 := by
  simp [State.isFlagCell]

/-- A register reads as what was last written to it, and no other register changes (R17). -/
theorem State.getV_setV (s : State) (x y : Nibble) (v : Byte) :
    (s.setV x v).getV y = if y = x then v else s.getV y := by
  by_cases hx : s.isFlagCell x = true
  · by_cases hy : s.isFlagCell y = true
    · have : y = x := by rw [(State.isFlagCell_iff.1 hx).2, (State.isFlagCell_iff.1 hy).2]
      subst this
      simp [State.getV, hx]
    · have : y ≠ x := fun h => hy (h ▸ hx)
      simp [State.getV, State.setV, this, State.isFlagCell] at *
      simp_all
  · by_cases hy : s.isFlagCell y = true
    · have : y ≠ x := fun h => hx (h ▸ hy)
      simp [State.getV, hx, hy, this]
    · have hset : s.setV x v = { s with vcell := s.vcell.set x.toNat v x.isLt } := by simp [State.setV, hx]
      by_cases h : y = x
      · subst h
        simp [State.getV, hset, State.isFlagCell] at *
        simp_all
      · have hne : ¬ x.toNat = y.toNat := fun e => h (BitVec.eq_of_toNat_eq e.symm)
        have hflag : ({ s with vcell := s.vcell.set x.toNat v x.isLt } : State).isFlagCell y = false := by
          simpa [State.isFlagCell] using hy
        simp [State.getV, hy, h, hset, hne, hflag]

/-- What the registers read as after a flag write (R16, R17). -/
theorem State.getV_setFlag (s : State) (y : Nibble) (b : Bool) :
    (s.setFlag b).getV y = if s.isFlagCell y then (if b then 1 else 0) else s.getV y := by
  by_cases h : s.isFlagCell y = true <;> simp [State.getV, h]

/-- The flag reads as `V[15]` where the two are one cell (R17). -/
theorem State.flag_eq_getV {s : State} {x : Nibble} (h : s.isFlagCell x = true) : s.flag = s.getV x := by
  simp [State.getV, h]

theorem State.getV_setFlagThenV (s : State) (x y : Nibble) (b : Bool) (v : Byte) :
    (s.setFlagThenV x b v).getV y =
      if y = x then v else if s.isFlagCell y then (if b then 1 else 0) else s.getV y := by
  rw [State.setFlagThenV, State.getV_setV, State.getV_setFlag]

theorem State.flag_setFlagThenV (s : State) (x : Nibble) (b : Bool) (v : Byte) :
    (s.setFlagThenV x b v).flag = if s.isFlagCell x then v else if b then 1 else 0 := by
  simp [State.setFlagThenV]

/-- A list of bytes written to consecutive registers (R91). -/
theorem State.getV_setVs {y : Nibble} :
    ∀ {bs : List Byte} {j : Nat} {s : State}, j + bs.length ≤ 16 →
      (s.setVs j bs).getV y =
        if h : j ≤ y.toNat ∧ y.toNat < j + bs.length then bs[y.toNat - j]'(by omega) else s.getV y
  | [], j, s, _ => by
    have : ¬ (j ≤ y.toNat ∧ y.toNat < j + ([] : List Byte).length) := by simp
    simp [State.setVs]
  | b :: bs, j, s, hl => by
    simp only [List.length_cons] at hl
    rw [State.setVs, State.getV_setVs (by omega), State.getV_setV]
    have hj : (BitVec.ofNat 4 j).toNat = j := by simp; omega
    by_cases h0 : y = BitVec.ofNat 4 j
    · have hy : y.toNat = j := by rw [h0, hj]
      have h1 : ¬ (j + 1 ≤ y.toNat ∧ y.toNat < j + 1 + bs.length) := by omega
      have h2 : j ≤ y.toNat ∧ y.toNat < j + (b :: bs).length := by simp only [List.length_cons]; omega
      rw [dif_neg h1, if_pos h0, dif_pos h2]
      simp [hy]
    · have hy : y.toNat ≠ j := fun e => h0 (BitVec.eq_of_toNat_eq (by rw [e, hj]))
      rw [if_neg h0]
      by_cases h1 : j + 1 ≤ y.toNat ∧ y.toNat < j + 1 + bs.length
      · have h2 : j ≤ y.toNat ∧ y.toNat < j + (b :: bs).length := by simp only [List.length_cons]; omega
        have h3 : y.toNat - j = (y.toNat - (j + 1)) + 1 := by omega
        rw [dif_pos h1, dif_pos h2]
        simp only [h3, List.getElem_cons_succ]
      · have h2 : ¬ (j ≤ y.toNat ∧ y.toNat < j + (b :: bs).length) := by simp only [List.length_cons]; omega
        rw [dif_neg h1, dif_neg h2]

/-- Writing registers changes nothing but the register cells. -/
theorem State.setVs_rest :
    ∀ (bs : List Byte) (j : Nat) (s : State),
      ∃ vcell flag, s.setVs j bs = { s with vcell := vcell, flag := flag }
  | [], _, s => ⟨s.vcell, s.flag, rfl⟩
  | b :: bs, j, s => by
    obtain ⟨v, f, h⟩ := State.setVs_rest bs (j + 1) (s.setV (BitVec.ofNat 4 j) b)
    refine ⟨v, f, ?_⟩
    rw [State.setVs, h]
    unfold State.setV
    split <;> rfl

/-- The flag after a list of bytes is written to registers: it changes only as `V[15]` (R17). -/
theorem State.flag_setVs_of_separate :
    ∀ {bs : List Byte} {j : Nat} {s : State}, s.cfg.flagAlias = .separate → (s.setVs j bs).flag = s.flag
  | [], _, _, _ => rfl
  | b :: bs, j, s, h => by
    rw [State.setVs, State.flag_setVs_of_separate (by simpa using h)]
    simp [State.isFlagCell, h]

@[simp] theorem State.length_getVs (s : State) (x : Nibble) : (s.getVs x).length = x.toNat + 1 := by
  simp [State.getVs]

theorem State.getElem_getVs (s : State) (x : Nibble) (j : Nat) (h : j < (s.getVs x).length) :
    (s.getVs x)[j] = s.getV (BitVec.ofNat 4 j) := by
  simp [State.getVs]

/-! ### Memory -/

/-- A load answers the bytes exactly when all of them exist (R39). -/
theorem State.loadBytes_eq_some {s : State} {a n : Nat} {bs : List Byte} :
    s.loadBytes a n = some bs ↔
      (n = 0 ∨ a + n ≤ memSize) ∧ bs = Memory.readList (Memory.background s.cfg) s.mem a n := by
  unfold State.loadBytes
  split
  next h => simp [inBounds_iff.1 h, eq_comm]
  next h => simp [mt inBounds_iff.2 h]

theorem State.loadBytes_eq_none {s : State} {a n : Nat} :
    s.loadBytes a n = none ↔ n ≠ 0 ∧ memSize < a + n := by
  unfold State.loadBytes
  split
  next h => have := inBounds_iff.1 h; simp; omega
  next h => have := mt inBounds_iff.2 h; simp; omega

/-- A store happens whole exactly when all of its addresses exist (R39, R40). -/
theorem State.storeBytes_eq_some {s t : State} {a : Nat} {bs : List Byte} :
    s.storeBytes a bs = some t ↔
      (bs.length = 0 ∨ a + bs.length ≤ memSize) ∧
        t = { s with mem := Memory.writeList (Memory.background s.cfg) s.mem a bs } := by
  unfold State.storeBytes
  split
  next h =>
    constructor
    · intro e
      exact ⟨inBounds_iff.1 h, by simpa using e.symm⟩
    · rintro ⟨_, rfl⟩
      rfl
  next h =>
    constructor
    · intro e
      cases e
    · rintro ⟨hb, _⟩
      exact absurd (inBounds_iff.2 hb) h

theorem State.storeBytes_eq_none {s : State} {a : Nat} {bs : List Byte} :
    s.storeBytes a bs = none ↔ bs.length ≠ 0 ∧ memSize < a + bs.length := by
  unfold State.storeBytes
  split
  next h =>
    have hb := inBounds_iff.1 h
    constructor
    · intro e
      cases e
    · omega
  next h =>
    have hb := mt inBounds_iff.2 h
    simp only [true_iff]
    omega

/-- What each address reads as after a store. -/
theorem State.readByte_storeBytes {s t : State} {a a' : Nat} {bs : List Byte} (hw : s.memWf = true)
    (h : s.storeBytes a bs = some t) :
    t.readByte a' = if h : a ≤ a' ∧ a' < a + bs.length then bs[a' - a]'(by omega) else s.readByte a' := by
  obtain ⟨hb, rfl⟩ := State.storeBytes_eq_some.1 h
  rcases hb with hb | hb
  · have : bs = [] := by simpa using hb
    subst this
    have : ¬ (a ≤ a' ∧ a' < a + ([] : List Byte).length) := by simp
    simp [State.readByte, Memory.writeList]
  · exact Memory.read_writeList hb hw

/-- A store keeps the canonical form. -/
theorem State.memWf_storeBytes {s t : State} {a : Nat} {bs : List Byte} (hw : s.memWf = true)
    (h : s.storeBytes a bs = some t) : t.memWf = true := by
  obtain ⟨hb, rfl⟩ := State.storeBytes_eq_some.1 h
  rcases hb with hb | hb
  · have : bs = [] := by simpa using hb
    subst this
    exact hw
  · exact Memory.wf_writeList hb hw

/-- Every address that exists can be stored to. -/
theorem State.storeBytes_of_le {s : State} {a : Nat} {bs : List Byte} (h : a + bs.length ≤ memSize) :
    s.storeBytes a bs = some { s with mem := Memory.writeList (Memory.background s.cfg) s.mem a bs } :=
  State.storeBytes_eq_some.2 ⟨.inr h, rfl⟩

/-- The fetch reads the two bytes at `pc`, the first the high one (R36, R58). -/
theorem State.fetchWord_of_le {s : State} (h : s.pc.toNat ≤ 0xFFE) :
    s.fetchWord = some (wordOfBytes (s.readByte s.pc.toNat) (s.readByte (s.pc.toNat + 1))) := by
  have hl := (State.loadBytes_eq_some (s := s) (a := s.pc.toNat) (n := 2)).2
    ⟨.inr (by simp only [memSize]; omega), rfl⟩
  unfold State.fetchWord
  rw [hl]
  simp [Memory.readList, State.readByte]

/-- The fetch fails exactly when its second byte does not exist (R39, R58). -/
theorem State.fetchWord_of_gt {s : State} (h : 0xFFE < s.pc.toNat) : s.fetchWord = none := by
  have hl := (State.loadBytes_eq_none (s := s) (a := s.pc.toNat) (n := 2)).2
    ⟨by decide, by simp only [memSize]; omega⟩
  unfold State.fetchWord
  rw [hl]

/-! ### Pixels -/

theorem getLsbD_rowWithCell (row : BitVec 64) (c d : Nat) (b : Bool) (h : c < 64) :
    (rowWithCell row c b).getLsbD d = if d = c then b else row.getLsbD d := by
  unfold rowWithCell
  cases b <;> by_cases hq : d = c <;> simp [BitVec.getLsbD_twoPow, hq, h] <;> grind

/-- A cell reads as what was last written to it, and no other cell changes. -/
theorem pixelAt_setPixel (px : Pixels) (p q : Nat) (b : Bool) (h : p < 2048) :
    pixelAt (setPixel px p b) q = if q = p then b else pixelAt px q := by
  have h1 : p / 64 < 32 := by omega
  have hm : p % 64 < 64 := Nat.mod_lt _ (by decide)
  unfold setPixel pixelAt
  by_cases h2 : q / 64 < 32
  · by_cases h3 : p / 64 = q / 64
    · have hrow : (px.set (p / 64) (rowWithCell (px[p / 64]'h1) (p % 64) b) h1)[q / 64]'h2
          = rowWithCell (px[p / 64]'h1) (p % 64) b := by
        simp [h3]
      rw [dif_pos h2, dif_pos h1, dif_pos h2, hrow, getLsbD_rowWithCell _ _ _ _ hm]
      have hk : (q % 64 = p % 64) ↔ q = p := by omega
      simp only [hk, h3]
    · have hq : q ≠ p := fun e => h3 (by rw [e])
      simp [h1, h2, hq, h3]
  · have hq : q ≠ p := fun e => h2 (by rw [e]; exact h1)
    simp [h2, hq]

theorem pixelAt_drawCell (p q : Nat) (bit : Bool) (d : Pixels × Bool) (h : p < 2048) :
    pixelAt (drawCell p bit d).1 q = if q = p then (bit && !pixelAt d.1 p) else pixelAt d.1 q := by
  unfold drawCell
  split
  next hc => simp_all [pixelAt_setPixel]
  next hc =>
    rw [pixelAt_setPixel _ _ _ _ h]
    by_cases hp : pixelAt d.1 p = true <;> cases bit <;> simp_all

theorem hit_drawCell (p : Nat) (bit : Bool) (d : Pixels × Bool) :
    (drawCell p bit d).2 = (d.2 || (pixelAt d.1 p && bit)) := by
  unfold drawCell
  split <;> simp_all

/-- One row of a sprite: the processed cells are `col .. min (col + length) 64 - 1`, the others do not change. -/
theorem pixelAt_drawRow {row q : Nat} (hr : row < 32) :
    ∀ {bits : List Bool} {col : Nat} {d : Pixels × Bool}, col < 64 →
      pixelAt (drawRow row col bits d).1 q =
        if h : q / 64 = row ∧ col ≤ q % 64 ∧ q % 64 < col + bits.length then
          (bits[q % 64 - col]'(by omega) && !pixelAt d.1 q) else pixelAt d.1 q
  | [], col, d, _ => by
    have : ¬ (q / 64 = row ∧ col ≤ q % 64 ∧ q % 64 < col + ([] : List Bool).length) := by
      simp only [List.length_nil]; omega
    rw [dif_neg this, drawRow]
  | bit :: bits, col, d, hc => by
    have hp : row * 64 + col < 2048 := by omega
    have hcell := pixelAt_drawCell (row * 64 + col) q bit d hp
    rw [drawRow]
    by_cases hq : q = row * 64 + col
    · subst hq
      have h1 : (row * 64 + col) / 64 = row := by omega
      have h2 : (row * 64 + col) % 64 = col := by omega
      have hin : (row * 64 + col) / 64 = row ∧ col ≤ (row * 64 + col) % 64 ∧
          (row * 64 + col) % 64 < col + (bit :: bits).length := by simp only [List.length_cons]; omega
      rw [dif_pos hin]
      simp only [h2, Nat.sub_self, List.getElem_cons_zero]
      split
      · rw [hcell, if_pos rfl]
      next hn =>
        have hout : ¬ ((row * 64 + col) / 64 = row ∧ col + 1 ≤ (row * 64 + col) % 64 ∧
          (row * 64 + col) % 64 < col + 1 + bits.length) := by omega
        rw [pixelAt_drawRow hr (by omega), dif_neg hout, hcell, if_pos rfl]
    · rw [if_neg hq] at hcell
      split
      next hn =>
        have hout : ¬ (q / 64 = row ∧ col ≤ q % 64 ∧ q % 64 < col + (bit :: bits).length) := by omega
        rw [dif_neg hout, hcell]
      next hn =>
        rw [pixelAt_drawRow hr (by omega), hcell]
        by_cases h1 : q / 64 = row ∧ col + 1 ≤ q % 64 ∧ q % 64 < col + 1 + bits.length
        · have h2 : q / 64 = row ∧ col ≤ q % 64 ∧ q % 64 < col + (bit :: bits).length := by
            simp only [List.length_cons]; omega
          have h3 : q % 64 - col = (q % 64 - (col + 1)) + 1 := by omega
          rw [dif_pos h1, dif_pos h2]
          simp only [h3, List.getElem_cons_succ]
        · have h2 : ¬ (q / 64 = row ∧ col ≤ q % 64 ∧ q % 64 < col + (bit :: bits).length) := by
            simp only [List.length_cons]; omega
          rw [dif_neg h1, dif_neg h2]

/-- One row of a sprite collides exactly when a processed cell held 1 and receives a 1. -/
theorem hit_drawRow {row : Nat} (hr : row < 32) :
    ∀ {bits : List Bool} {col : Nat} {d : Pixels × Bool}, col < 64 →
      ((drawRow row col bits d).2 = true ↔
        d.2 = true ∨ ∃ j, ∃ h : j < bits.length, col + j < 64 ∧ bits[j] = true ∧
          pixelAt d.1 (row * 64 + (col + j)) = true)
  | [], col, d, _ => by simp [drawRow]
  | bit :: bits, col, d, hc => by
    rw [drawRow]
    have hp : row * 64 + col < 2048 := by omega
    have hhit := hit_drawCell (row * 64 + col) bit d
    split
    next hn =>
      rw [hhit]
      constructor
      · intro h
        rcases Bool.or_eq_true_iff.1 h with h | h
        · exact .inl h
        · obtain ⟨h1, h2⟩ := Bool.and_eq_true_iff.1 h
          exact .inr ⟨0, by simp, by simpa using hc, by simpa using h2, by simpa using h1⟩
      · rintro (h | ⟨j, hj, h64, hb, hpx⟩)
        · simp [h]
        · have : j = 0 := by omega
          subst this
          simp_all
    next hn =>
      rw [hit_drawRow hr (by omega), hhit]
      constructor
      · rintro (h | ⟨j, hj, h64, hb, hpx⟩)
        · rcases Bool.or_eq_true_iff.1 h with h | h
          · exact .inl h
          · obtain ⟨h1, h2⟩ := Bool.and_eq_true_iff.1 h
            exact .inr ⟨0, by simp, by simpa using hc, by simpa using h2, by simpa using h1⟩
        · refine .inr ⟨j + 1, by simpa using hj, by omega, by simpa using hb, ?_⟩
          rw [pixelAt_drawCell _ _ _ _ hp, if_neg (by omega)] at hpx
          rwa [Nat.add_comm j 1, ← Nat.add_assoc col 1 j]
      · rintro (h | ⟨j, hj, h64, hb, hpx⟩)
        · simp [h]
        · cases j with
          | zero => simp_all
          | succ j =>
            refine .inr ⟨j, by simpa using hj, by omega, by simpa using hb, ?_⟩
            rw [pixelAt_drawCell _ _ _ _ hp, if_neg (by omega)]
            rwa [Nat.add_comm j 1, ← Nat.add_assoc col 1 j] at hpx

@[simp] theorem length_spriteBits (b : Byte) : (spriteBits b).length = 8 := rfl

/-- Bit `c` of a sprite row is bit `7 - c` of its byte (R63). -/
theorem getElem_spriteBits (b : Byte) (c : Nat) (h : c < (spriteBits b).length) :
    (spriteBits b)[c] = b.getLsbD (7 - c) := by
  simp only [length_spriteBits] at h
  match c, h with
  | 0, _ | 1, _ | 2, _ | 3, _ | 4, _ | 5, _ | 6, _ | 7, _ => rfl

/-- All rows of a sprite: a processed cell of row `r` becomes `bit AND NOT old`, the others do not change (R63). -/
theorem pixelAt_drawRows {cx q : Nat} (hc : cx < 64) :
    ∀ {bs : List Byte} {row : Nat} {d : Pixels × Bool}, row + bs.length ≤ 32 →
      pixelAt (drawRows cx row bs d).1 q =
        if h : (row ≤ q / 64 ∧ q / 64 < row + bs.length) ∧ cx ≤ q % 64 ∧ q % 64 < cx + 8 then
          ((bs[q / 64 - row]'(by omega)).getLsbD (7 - (q % 64 - cx)) && !pixelAt d.1 q) else pixelAt d.1 q
  | [], row, d, _ => by
    have : ¬ ((row ≤ q / 64 ∧ q / 64 < row + ([] : List Byte).length) ∧ cx ≤ q % 64 ∧ q % 64 < cx + 8) := by
      simp only [List.length_nil]; omega
    rw [dif_neg this, drawRows]
  | b :: bs, row, d, hl => by
    simp only [List.length_cons] at hl
    rw [drawRows, pixelAt_drawRows hc (by omega), pixelAt_drawRow (by omega) hc]
    by_cases h0 : q / 64 = row
    · have h1 : ¬ ((row + 1 ≤ q / 64 ∧ q / 64 < row + 1 + bs.length) ∧ cx ≤ q % 64 ∧ q % 64 < cx + 8) := by omega
      rw [dif_neg h1]
      by_cases h2 : cx ≤ q % 64 ∧ q % 64 < cx + 8
      · have h3 : q / 64 = row ∧ cx ≤ q % 64 ∧ q % 64 < cx + (spriteBits b).length := by
          simp only [length_spriteBits]; omega
        have h4 : (row ≤ q / 64 ∧ q / 64 < row + (b :: bs).length) ∧ cx ≤ q % 64 ∧ q % 64 < cx + 8 := by
          simp only [List.length_cons]; omega
        rw [dif_pos h3, dif_pos h4, getElem_spriteBits]
        simp [h0]
      · have h3 : ¬ (q / 64 = row ∧ cx ≤ q % 64 ∧ q % 64 < cx + (spriteBits b).length) := by
          simp only [length_spriteBits]; omega
        have h4 : ¬ ((row ≤ q / 64 ∧ q / 64 < row + (b :: bs).length) ∧ cx ≤ q % 64 ∧ q % 64 < cx + 8) := by omega
        rw [dif_neg h3, dif_neg h4]
    · have h3 : ¬ (q / 64 = row ∧ cx ≤ q % 64 ∧ q % 64 < cx + (spriteBits b).length) := by omega
      rw [dif_neg h3]
      by_cases h1 : (row + 1 ≤ q / 64 ∧ q / 64 < row + 1 + bs.length) ∧ cx ≤ q % 64 ∧ q % 64 < cx + 8
      · have h4 : (row ≤ q / 64 ∧ q / 64 < row + (b :: bs).length) ∧ cx ≤ q % 64 ∧ q % 64 < cx + 8 := by
          simp only [List.length_cons]; omega
        have h5 : q / 64 - row = (q / 64 - (row + 1)) + 1 := by omega
        rw [dif_pos h1, dif_pos h4]
        simp only [h5, List.getElem_cons_succ]
      · have h4 : ¬ ((row ≤ q / 64 ∧ q / 64 < row + (b :: bs).length) ∧ cx ≤ q % 64 ∧ q % 64 < cx + 8) := by
          simp only [List.length_cons]; omega
        rw [dif_neg h1, dif_neg h4]

/-- A sprite collides exactly when some processed cell held 1 and receives a 1 (R63). -/
theorem hit_drawRows {cx : Nat} (hc : cx < 64) :
    ∀ {bs : List Byte} {row : Nat} {d : Pixels × Bool}, row + bs.length ≤ 32 →
      ((drawRows cx row bs d).2 = true ↔
        d.2 = true ∨ ∃ r, ∃ h : r < bs.length, ∃ c, c < 8 ∧ cx + c < 64 ∧ bs[r].getLsbD (7 - c) = true ∧
          pixelAt d.1 ((row + r) * 64 + (cx + c)) = true)
  | [], row, d, _ => by simp [drawRows]
  | b :: bs, row, d, hl => by
    simp only [List.length_cons] at hl
    have hr : row < 32 := by omega
    rw [drawRows, hit_drawRows hc (by omega), hit_drawRow hr hc]
    have later : ∀ r c, 0 < r → cx + c < 64 →
        pixelAt (drawRow row cx (spriteBits b) d).1 ((row + r) * 64 + (cx + c)) =
          pixelAt d.1 ((row + r) * 64 + (cx + c)) := by
      intro r c h0 h1
      have : ¬ (((row + r) * 64 + (cx + c)) / 64 = row ∧ cx ≤ ((row + r) * 64 + (cx + c)) % 64 ∧
          ((row + r) * 64 + (cx + c)) % 64 < cx + (spriteBits b).length) := by omega
      rw [pixelAt_drawRow hr hc, dif_neg this]
    constructor
    · rintro ((h | ⟨j, hj, h64, hb, hpx⟩) | ⟨r, h, c, h8, h64, hb, hpx⟩)
      · exact .inl h
      · rw [getElem_spriteBits] at hb
        exact .inr ⟨0, by simp, j, by simpa using hj, h64, by simpa using hb, by simpa using hpx⟩
      · refine .inr ⟨r + 1, by simpa using h, c, h8, h64, by simpa using hb, ?_⟩
        have hl := later (r + 1) c (by omega) h64
        rw [Nat.add_assoc row 1 r, Nat.add_comm 1 r, hl] at hpx
        exact hpx
    · rintro (h | ⟨r, h, c, h8, h64, hb, hpx⟩)
      · exact .inl (.inl h)
      · cases r with
        | zero =>
          refine .inl (.inr ⟨c, by simpa using h8, h64, ?_, by simpa using hpx⟩)
          rw [getElem_spriteBits]
          simpa using hb
        | succ r =>
          refine .inr ⟨r, by simpa using h, c, h8, h64, by simpa using hb, ?_⟩
          rw [Nat.add_assoc row 1 r, Nat.add_comm 1 r, later (r + 1) c (by omega) h64]
          exact hpx

/-! ### The program counter -/

/-- Inside a rule `pc = ia + 2`, so the instruction's address is the pc before the advance (R58; log 12). -/
@[simp] theorem State.instrAddr_advance (s : State) : s.advance.instrAddr = s.pc := by
  simp [State.instrAddr]

theorem State.skipIf_true (s : State) : s.skipIf true = s.advance := rfl

theorem State.skipIf_false (s : State) : s.skipIf false = s := rfl

/-! ### The end of a step -/

/-- The end of a step answers a next state exactly when the rule did, with a redraw event where it completed (R61). -/
theorem finishStep_eq_next {r : Result} {t : State} :
    finishStep r = .next t ↔
      ∃ s, r = .next s ∧ t = if s.status = .running then s.emitRedraw else s := by
  cases r with
  | next s => simp [finishStep, eq_comm]
  | fault f => cases f
  | refused r => simp [finishStep]

end Sys2Proof.Machine
end

