-- ==== Sys2Proof/Laws/Step.lean ====
section
/-! SUPPORT. Everything one step can do (30_encoding.md R57): one inversion lemma, from which the claims about steps
follow. -/

namespace Sys2Proof.Machine

/-- A step that answers a next state is one of four: the core has stopped; the fetch is out of bounds; the word is
unknown; an instruction's rule ran on the advanced state. -/
theorem step_cases {s t : State} (h : step s = .next t) :
    (s.status ≠ .running ∧ t = s) ∨
    (s.status = .running ∧ 0xFFE < s.pc.toNat ∧ t = s.raiseFetch) ∨
    (s.status = .running ∧ s.pc.toNat ≤ 0xFFE ∧ ∃ w, s.fetchWord = some w ∧
      decodeWord s.cfg.haltOnZero w = none ∧ t = s.advance.raiseUnknown w) ∨
    (s.status = .running ∧ s.pc.toNat ≤ 0xFFE ∧ ∃ w i u, s.fetchWord = some w ∧
      decodeWord s.cfg.haltOnZero w = some i ∧ exec i s.advance = .next u ∧
      t = if u.status = .running then u.emitRedraw else u) := by
  have hpc : ∀ w, s.fetchWord = some w → s.pc.toNat ≤ 0xFFE := by
    intro w hw
    by_contra hc
    rw [State.fetchWord_of_gt (by omega)] at hw
    cases hw
  have hgt : s.fetchWord = none → 0xFFE < s.pc.toNat := by
    intro hn
    by_contra hc
    rw [State.fetchWord_of_le (by omega)] at hn
    cases hn
  unfold step at h
  split at h
  next hs => exact .inl ⟨by simp [hs], (by simpa using h.symm)⟩
  next hs => exact .inl ⟨by simp [hs], (by simpa using h.symm)⟩
  next hs =>
    split at h
    next hf => exact .inr (.inl ⟨hs, hgt hf, by simpa using h.symm⟩)
    next w hf =>
      split at h
      next hd => exact .inr (.inr (.inl ⟨hs, hpc w hf, w, hf, hd, by simpa using h.symm⟩))
      next i hd =>
        obtain ⟨u, hu, ht⟩ := finishStep_eq_next.1 h
        exact .inr (.inr (.inr ⟨hs, hpc w hf, w, i, u, hf, hd, hu, ht⟩))

end Sys2Proof.Machine
end

