-- ==== Sys2Proof/Laws/Frames.lean ====
section
/-! SUPPORT. The frames of the shared operations: what a register write, a flag write and a change of the registers' own
cells leave the same, part by part (Sys2Proof/Safety.lean). -/

namespace Sys2Proof.Machine

/-- A frame may be stated with more parts than change. -/
theorem State.sameBut_mono {s t : State} {P Q : Part → Prop} (h : s.sameBut t P) (hPQ : ∀ p, P p → Q p) :
    s.sameBut t Q := fun p hp => h p fun hP => hp (hPQ p hP)

/-- Frames compose. -/
theorem State.sameBut_trans {s t u : State} {P : Part → Prop} (h : s.sameBut t P) (h' : t.sameBut u P) :
    s.sameBut u P := by
  intro p hp
  have h1 := h p hp
  have h2 := h' p hp
  cases p <;> simp_all [State.same]

/-- A register write changes that register alone (and the flag where it is the same cell, R17). -/
theorem State.sameBut_setV (s : State) (x : Nibble) (v : Byte) : s.sameBut (s.setV x v) (s.isV x) := by
  intro p hp
  cases p with
  | reg y =>
    have : y ≠ x := fun e => hp (.inl (by rw [e]))
    simp [State.same, State.getV_setV, this]
  | flag =>
    have : s.isFlagCell x = false := by
      by_contra h
      exact hp (.inr ⟨by simpa using h, rfl⟩)
    simp [State.same, this]
  | _ => simp [State.same]

/-- A flag write changes the flag alone (and `V[15]` where it is the same cell). -/
theorem State.sameBut_setFlag (s : State) (b : Bool) : s.sameBut (s.setFlag b) s.isFlag := by
  intro p hp
  cases p with
  | reg y =>
    have : s.isFlagCell y = false := by
      by_contra h
      exact hp (.inr ⟨y, by simpa using h, rfl⟩)
    simp [State.same, State.getV_setFlag, this]
  | flag => exact absurd (.inl rfl) hp
  | _ => simp [State.same]

/-- A result written with its flag changes that register and the flag alone (R18). -/
theorem State.sameBut_setFlagThenV (s : State) (x : Nibble) (b : Bool) (v : Byte) :
    s.sameBut (s.setFlagThenV x b v) (fun q => s.isV x q ∨ s.isFlag q) := by
  refine State.sameBut_trans (State.sameBut_mono (s.sameBut_setFlag b) fun _ h => .inr h) ?_
  refine State.sameBut_mono ((s.setFlag b).sameBut_setV x v) fun p h => .inl ?_
  simpa [State.isV] using h

/-- A store changes the bytes it stores alone. -/
theorem State.sameBut_storeBytes {s t : State} {a : Nat} {bs : List Byte} (hw : s.memWf = true)
    (h : s.storeBytes a bs = some t) : s.sameBut t (fun q => ∃ j, j < bs.length ∧ q = .byte (a + j)) := by
  intro p hp
  have hrest := (State.storeBytes_eq_some.1 h).2
  cases p with
  | byte a' =>
    have : ¬ (a ≤ a' ∧ a' < a + bs.length) := fun ⟨h1, h2⟩ =>
      hp ⟨a' - a, by omega, by rw [show a + (a' - a) = a' by omega]⟩
    simp [State.same, State.readByte_storeBytes hw h, this]
  | reg y => rw [hrest]; rfl
  | _ => simp [State.same, hrest]

end Sys2Proof.Machine
end

