-- ==== Sys2Proof/Laws/PerInstr.lean ====
section
/-! SUPPORT. Per instruction: the word of an instruction has the fixed bits of its row of opcode_table.json
(30_encoding.md R52, R53). -/

namespace Sys2Proof.Laws.FixedBits

/-- `(word AND mask) = match` for the instruction's own row (R52). -/
def Statement (i : Instr) : Prop := encode i &&& rowMask i = rowMatch i

/-- Masking a nibble or a byte with all ones changes nothing. -/
theorem and_ones4 (o : Nibble) : o &&& 0xF#4 = o := BitVec.and_allOnes

theorem and_ones8 (b : Byte) : b &&& 0xFF#8 = b := BitVec.and_allOnes

/-- The fixed bits of the `ADDR` layout (R49). -/
theorem addr_mask (o : Nibble) (nnn : Addr) : (o ++ nnn : Word) &&& 0xF000 = o ++ 0#12 := by
  rw [show (0xF000 : Word) = 0xF#4 ++ 0#12 from rfl, BitVec.and_append, and_ones4, BitVec.and_zero]

/-- The fixed bits of the `XNN` layout. -/
theorem xnn_mask (o x : Nibble) (nn : Byte) : (o ++ x ++ nn : Word) &&& 0xF000 = o ++ 0#4 ++ 0#8 := by
  rw [show (0xF000 : Word) = 0xF#4 ++ 0#4 ++ 0#8 from rfl, BitVec.and_append, BitVec.and_append, and_ones4,
    BitVec.and_zero, BitVec.and_zero]

/-- The fixed bits of the `XYN` layout. -/
theorem xyn_mask (o x y n : Nibble) : (o ++ x ++ y ++ n : Word) &&& 0xF000 = o ++ 0#4 ++ 0#4 ++ 0#4 := by
  rw [show (0xF000 : Word) = 0xF#4 ++ 0#4 ++ 0#4 ++ 0#4 from rfl, BitVec.and_append, BitVec.and_append,
    BitVec.and_append, and_ones4, BitVec.and_zero, BitVec.and_zero, BitVec.and_zero]

/-- The fixed bits of the `XYS` layout. -/
theorem xys_mask (o x y n : Nibble) : (o ++ x ++ y ++ n : Word) &&& 0xF00F = o ++ 0#4 ++ 0#4 ++ n := by
  rw [show (0xF00F : Word) = 0xF#4 ++ 0#4 ++ 0#4 ++ 0xF#4 from rfl, BitVec.and_append, BitVec.and_append,
    BitVec.and_append, and_ones4, and_ones4, BitVec.and_zero, BitVec.and_zero]

/-- The fixed bits of the `XFF` layout. -/
theorem xff_mask (o x : Nibble) (ff : Byte) : (o ++ x ++ ff : Word) &&& 0xF0FF = o ++ 0#4 ++ ff := by
  rw [show (0xF0FF : Word) = 0xF#4 ++ 0#4 ++ 0xFF#8 from rfl, BitVec.and_append, BitVec.and_append, and_ones4,
    and_ones8, BitVec.and_zero]

theorem halt : Statement .halt := by
  unfold Statement; decide

theorem cls : Statement .cls := by
  unfold Statement; decide

theorem ret : Statement .ret := by
  unfold Statement; decide

theorem jpAddr (nnn : Addr) : Statement (.jpAddr nnn) := by
  unfold Statement; exact addr_mask _ _

theorem callAddr (nnn : Addr) : Statement (.callAddr nnn) := by
  unfold Statement; exact addr_mask _ _

theorem seVxByte (x : Nibble) (nn : Byte) : Statement (.seVxByte x nn) := by
  unfold Statement; exact xnn_mask _ _ _

theorem sneVxByte (x : Nibble) (nn : Byte) : Statement (.sneVxByte x nn) := by
  unfold Statement; exact xnn_mask _ _ _

theorem seVxVy (x y : Nibble) : Statement (.seVxVy x y) := by
  unfold Statement; exact xys_mask _ _ _ _

theorem ldVxByte (x : Nibble) (nn : Byte) : Statement (.ldVxByte x nn) := by
  unfold Statement; exact xnn_mask _ _ _

theorem addVxByte (x : Nibble) (nn : Byte) : Statement (.addVxByte x nn) := by
  unfold Statement; exact xnn_mask _ _ _

theorem ldVxVy (x y : Nibble) : Statement (.ldVxVy x y) := by
  unfold Statement; exact xys_mask _ _ _ _

theorem orVxVy (x y : Nibble) : Statement (.orVxVy x y) := by
  unfold Statement; exact xys_mask _ _ _ _

theorem andVxVy (x y : Nibble) : Statement (.andVxVy x y) := by
  unfold Statement; exact xys_mask _ _ _ _

theorem xorVxVy (x y : Nibble) : Statement (.xorVxVy x y) := by
  unfold Statement; exact xys_mask _ _ _ _

theorem addVxVy (x y : Nibble) : Statement (.addVxVy x y) := by
  unfold Statement; exact xys_mask _ _ _ _

theorem subVxVy (x y : Nibble) : Statement (.subVxVy x y) := by
  unfold Statement; exact xys_mask _ _ _ _

theorem shrVxVy (x y : Nibble) : Statement (.shrVxVy x y) := by
  unfold Statement; exact xys_mask _ _ _ _

theorem subnVxVy (x y : Nibble) : Statement (.subnVxVy x y) := by
  unfold Statement; exact xys_mask _ _ _ _

theorem shlVxVy (x y : Nibble) : Statement (.shlVxVy x y) := by
  unfold Statement; exact xys_mask _ _ _ _

theorem sneVxVy (x y : Nibble) : Statement (.sneVxVy x y) := by
  unfold Statement; exact xys_mask _ _ _ _

theorem ldIAddr (nnn : Addr) : Statement (.ldIAddr nnn) := by
  unfold Statement; exact addr_mask _ _

theorem jpV0Addr (nnn : Addr) : Statement (.jpV0Addr nnn) := by
  unfold Statement; exact addr_mask _ _

theorem rndVxByte (x : Nibble) (nn : Byte) : Statement (.rndVxByte x nn) := by
  unfold Statement; exact xnn_mask _ _ _

theorem drwVxVyNibble (x y n : Nibble) : Statement (.drwVxVyNibble x y n) := by
  unfold Statement; exact xyn_mask _ _ _ _

theorem skpVx (x : Nibble) : Statement (.skpVx x) := by
  unfold Statement; exact xff_mask _ _ _

theorem sknpVx (x : Nibble) : Statement (.sknpVx x) := by
  unfold Statement; exact xff_mask _ _ _

theorem ldVxDT (x : Nibble) : Statement (.ldVxDT x) := by
  unfold Statement; exact xff_mask _ _ _

theorem ldDTVx (x : Nibble) : Statement (.ldDTVx x) := by
  unfold Statement; exact xff_mask _ _ _

theorem ldSTVx (x : Nibble) : Statement (.ldSTVx x) := by
  unfold Statement; exact xff_mask _ _ _

theorem addIVx (x : Nibble) : Statement (.addIVx x) := by
  unfold Statement; exact xff_mask _ _ _

theorem ldFVx (x : Nibble) : Statement (.ldFVx x) := by
  unfold Statement; exact xff_mask _ _ _

theorem ldBVx (x : Nibble) : Statement (.ldBVx x) := by
  unfold Statement; exact xff_mask _ _ _

theorem ldMemVx (x : Nibble) : Statement (.ldMemVx x) := by
  unfold Statement; exact xff_mask _ _ _

theorem ldVxMem (x : Nibble) : Statement (.ldVxMem x) := by
  unfold Statement; exact xff_mask _ _ _

end Sys2Proof.Laws.FixedBits
end

