-- ==== Sys2Proof/Machine/Assembler.lean ====
section
/-! DEFINITION. The spec's own assembler notation (30_encoding.md R56), one line per instruction; numbers are
hexadecimal. The core never sees it: it is how a reader names an instruction. -/

namespace Sys2Proof.Machine

/-- One hexadecimal digit. -/
def hexDigit (n : Nibble) : String :=
  ["0", "1", "2", "3", "4", "5", "6", "7", "8", "9", "A", "B", "C", "D", "E", "F"].getD n.toNat "?"

/-- A register's name, `V0` to `VF`. -/
def regName (x : Nibble) : String := "V" ++ hexDigit x

/-- A row count. -/
def nibbleText (n : Nibble) : String := "0x" ++ hexDigit n

/-- A byte. -/
def byteText (nn : Byte) : String := "0x" ++ hexDigit (nn.extractLsb' 4 4) ++ hexDigit (nn.extractLsb' 0 4)

/-- A 12-bit address. -/
def addrText (nnn : Addr) : String :=
  "0x" ++ hexDigit (nnn.extractLsb' 8 4) ++ hexDigit (nnn.extractLsb' 4 4) ++ hexDigit (nnn.extractLsb' 0 4)

/-- A mnemonic with two operands. -/
def asm2 (mnemonic a b : String) : String := mnemonic ++ " " ++ a ++ ", " ++ b

/-- An instruction in the notation of R56. -/
def asmText : Instr → String
  | .halt => "HALT"
  | .cls => "CLS"
  | .ret => "RET"
  | .jpAddr nnn => "JP " ++ addrText nnn
  | .callAddr nnn => "CALL " ++ addrText nnn
  | .seVxByte x nn => asm2 "SE" (regName x) (byteText nn)
  | .sneVxByte x nn => asm2 "SNE" (regName x) (byteText nn)
  | .seVxVy x y => asm2 "SE" (regName x) (regName y)
  | .ldVxByte x nn => asm2 "LD" (regName x) (byteText nn)
  | .addVxByte x nn => asm2 "ADD" (regName x) (byteText nn)
  | .ldVxVy x y => asm2 "LD" (regName x) (regName y)
  | .orVxVy x y => asm2 "OR" (regName x) (regName y)
  | .andVxVy x y => asm2 "AND" (regName x) (regName y)
  | .xorVxVy x y => asm2 "XOR" (regName x) (regName y)
  | .addVxVy x y => asm2 "ADD" (regName x) (regName y)
  | .subVxVy x y => asm2 "SUB" (regName x) (regName y)
  | .shrVxVy x y => asm2 "SHR" (regName x) (regName y)
  | .subnVxVy x y => asm2 "SUBN" (regName x) (regName y)
  | .shlVxVy x y => asm2 "SHL" (regName x) (regName y)
  | .sneVxVy x y => asm2 "SNE" (regName x) (regName y)
  | .ldIAddr nnn => asm2 "LD" "I" (addrText nnn)
  | .jpV0Addr nnn => asm2 "JP" "V0" (addrText nnn)
  | .rndVxByte x nn => asm2 "RND" (regName x) (byteText nn)
  | .drwVxVyNibble x y n => asm2 "DRW" (regName x) (regName y) ++ ", " ++ nibbleText n
  | .skpVx x => "SKP " ++ regName x
  | .sknpVx x => "SKNP " ++ regName x
  | .ldVxDT x => asm2 "LD" (regName x) "DT"
  | .ldDTVx x => asm2 "LD" "DT" (regName x)
  | .ldSTVx x => asm2 "LD" "ST" (regName x)
  | .addIVx x => asm2 "ADD" "I" (regName x)
  | .ldFVx x => asm2 "LD" "F" (regName x)
  | .ldBVx x => asm2 "LD" "B" (regName x)
  | .ldMemVx x => asm2 "LD" "[I]" (regName x)
  | .ldVxMem x => asm2 "LD" (regName x) "[I]"

end Sys2Proof.Machine
end

