-- ==== Sys2Proof/Tests/Slice0.lean ====
section
/-! SUPPORT. Tests of one step each, with results taken from the spec (95_test_vectors.md, or the rule named), the
decoding of one word of every row, and for every statement with hypotheses a concrete state that meets them. -/

namespace Sys2Proof.Tests

open Sys2Proof Sys2Proof.Machine

/-- The reset state, in a configuration. -/
def fresh (cfg : Config) : State := State.resetWith cfg [] 0

/-- The reset state of the default configuration. -/
def base : State := fresh Config.default

/-- The configurations the vectors name. -/
def vxShift : Config := { Config.default with shiftSource := .vx }
def padded : Config := { Config.default with bcdMode := .padded }
def noHalt : Config := { Config.default with haltOnZero := false }
def keys : Config := { Config.default with keypad := .present }
def aliased : Config := { Config.default with flagAlias := .vf }
def returning : Config := { Config.default with stackDiscipline := .returnAddress }

/-- One byte of memory set. -/
def poke (s : State) (a : Nat) (b : Byte) : State := { s with mem := Memory.write (Memory.background s.cfg) s.mem a b }

/-- The step answers a next state, and it meets the test. -/
def gives (r : Result) (p : State → Bool) : Bool :=
  match r with
  | .next t => p t
  | .fault _ => false
  | .refused _ => false

/-- One step of the word, placed where the next fetch reads. -/
def runs (w : Nat) (s : State) (p : State → Bool) : Bool := gives (step (s.withFetchWord 16 w)) p

/-- The step faulted with this kind, `addr` and `size`, with `pc = 0x202`. -/
def faults (k : FaultKind) (addr size : Option Nat) (t : State) : Bool :=
  t.status = .faulted ∧ t.pc = 0x202 ∧
    t.fault.map (fun r => (r.kind, r.addr, r.size, r.ia)) = some (k, addr, size, some 0x200)


/-! ### Well-formedness -/


/-- R52: the halt row is absent under `HALT_ON_ZERO = false`. -/
theorem test_halt_ill_formed_without_the_row : Instr.halt.wellFormed noHalt = false := by decide

/-- R52: the halt row is present under the default. -/
theorem test_halt_well_formed_with_the_row : Instr.halt.wellFormed Config.default = true := by decide

/-! ### Decoding: a word of every row, written out from its encoding (R51) -/


/-- The row of R51, bit by bit. -/
theorem test_decode_halt : decodeTableWord 16 0b0000000000000000 = some .halt := by decide

/-- The row of R51, bit by bit. -/
theorem test_decode_cls : decodeTableWord 16 0b0000000011100000 = some .cls := by decide

/-- The row of R51, bit by bit. -/
theorem test_decode_ret : decodeTableWord 16 0b0000000011101110 = some .ret := by decide

/-- The row of R51, bit by bit. -/
theorem test_decode_jp : decodeTableWord 16 0b0001101010111100 = some (.jpAddr 0xABC) := by decide

/-- The row of R51, bit by bit. -/
theorem test_decode_call : decodeTableWord 16 0b0010001100000000 = some (.callAddr 0x300) := by decide

/-- The row of R51, bit by bit. -/
theorem test_decode_se_byte : decodeTableWord 16 0b0011001101000010 = some (.seVxByte 3 0x42) := by decide

/-- The row of R51, bit by bit. -/
theorem test_decode_sne_byte : decodeTableWord 16 0b0100001101000010 = some (.sneVxByte 3 0x42) := by decide

/-- The row of R51, bit by bit. -/
theorem test_decode_se_register : decodeTableWord 16 0b0101000100100000 = some (.seVxVy 1 2) := by decide

/-- The row of R51, bit by bit. -/
theorem test_decode_ld_byte : decodeTableWord 16 0b0110101000101111 = some (.ldVxByte 10 0x2F) := by decide

/-- The row of R51, bit by bit. -/
theorem test_decode_add_byte : decodeTableWord 16 0b0111000111111111 = some (.addVxByte 1 0xFF) := by decide

/-- The row of R51, bit by bit. -/
theorem test_decode_ld_register : decodeTableWord 16 0b1000000100100000 = some (.ldVxVy 1 2) := by decide

/-- The row of R51, bit by bit. -/
theorem test_decode_or : decodeTableWord 16 0b1000000100100001 = some (.orVxVy 1 2) := by decide

/-- The row of R51, bit by bit. -/
theorem test_decode_and : decodeTableWord 16 0b1000000100100010 = some (.andVxVy 1 2) := by decide

/-- The row of R51, bit by bit. -/
theorem test_decode_xor : decodeTableWord 16 0b1000000100100011 = some (.xorVxVy 1 2) := by decide

/-- The row of R51, bit by bit. -/
theorem test_decode_add : decodeTableWord 16 0b1000000100100100 = some (.addVxVy 1 2) := by decide

/-- The row of R51, bit by bit. -/
theorem test_decode_sub : decodeTableWord 16 0b1000000100100101 = some (.subVxVy 1 2) := by decide

/-- The row of R51, bit by bit. -/
theorem test_decode_shr : decodeTableWord 16 0b1000000100100110 = some (.shrVxVy 1 2) := by decide

/-- The row of R51, bit by bit. -/
theorem test_decode_subn : decodeTableWord 16 0b1000000100100111 = some (.subnVxVy 1 2) := by decide

/-- The row of R51, bit by bit. -/
theorem test_decode_shl : decodeTableWord 16 0b1000000100101110 = some (.shlVxVy 1 2) := by decide

/-- The row of R51, bit by bit. -/
theorem test_decode_sne_register : decodeTableWord 16 0b1001000100100000 = some (.sneVxVy 1 2) := by decide

/-- The row of R51, bit by bit. -/
theorem test_decode_ld_i : decodeTableWord 16 0b1010001100000000 = some (.ldIAddr 0x300) := by decide

/-- The row of R51, bit by bit. -/
theorem test_decode_jp_v0 : decodeTableWord 16 0b1011010100000000 = some (.jpV0Addr 0x500) := by decide

/-- The row of R51, bit by bit. -/
theorem test_decode_rnd : decodeTableWord 16 0b1100001100001111 = some (.rndVxByte 3 0x0F) := by decide

/-- The row of R51, bit by bit. -/
theorem test_decode_drw : decodeTableWord 16 0b1101000011110101 = some (.drwVxVyNibble 0 15 5) := by decide

/-- The row of R51, bit by bit. -/
theorem test_decode_skp : decodeTableWord 16 0b1110000110011110 = some (.skpVx 1) := by decide

/-- The row of R51, bit by bit. -/
theorem test_decode_sknp : decodeTableWord 16 0b1110000110100001 = some (.sknpVx 1) := by decide

/-- The row of R51, bit by bit. -/
theorem test_decode_ld_vx_dt : decodeTableWord 16 0b1111001100000111 = some (.ldVxDT 3) := by decide

/-- The row of R51, bit by bit. -/
theorem test_decode_ld_dt_vx : decodeTableWord 16 0b1111010100010101 = some (.ldDTVx 5) := by decide

/-- The row of R51, bit by bit. -/
theorem test_decode_ld_st_vx : decodeTableWord 16 0b1111010100011000 = some (.ldSTVx 5) := by decide

/-- The row of R51, bit by bit. -/
theorem test_decode_add_i : decodeTableWord 16 0b1111000100011110 = some (.addIVx 1) := by decide

/-- The row of R51, bit by bit. -/
theorem test_decode_ld_f : decodeTableWord 16 0b1111001000101001 = some (.ldFVx 2) := by decide

/-- The row of R51, bit by bit. -/
theorem test_decode_ld_b : decodeTableWord 16 0b1111000000110011 = some (.ldBVx 0) := by decide

/-- The row of R51, bit by bit. -/
theorem test_decode_ld_mem_vx : decodeTableWord 16 0b1111111101010101 = some (.ldMemVx 15) := by decide

/-- The row of R51, bit by bit. -/
theorem test_decode_ld_vx_mem : decodeTableWord 16 0b1111001001100101 = some (.ldVxMem 2) := by decide

/-- R46: one byte is no word. -/
theorem test_decode_refuses_truncated : decode Config.default [0x60] = .error .truncated := by decide

/-- R55, vector S10. -/
theorem test_decode_refuses_by_name : decode Config.default [0xE1, 0x23] = .error (.unknownOpcode 0xE123) := by decide

/-- R56, the notation. -/
theorem test_assembler : asmText (.drwVxVyNibble 0 1 5) = "DRW V0, V1, 0x5" ∧ asmText (.ldMemVx 10) = "LD [I], VA"
    := by decide

/-! ### Dispatch (95_test_vectors.md 2.1) -/


/-- Vector DS2. -/
theorem test_fetch_last_word : gives (step { poke (poke base 0xFFE 0x60) 0xFFF 0x01 with pc := 0xFFE }) (fun t =>
    t.getV 0 = 1 ∧ t.pc = 0x1000 ∧ t.redraws = 1) = true := by decide

/-- Vector DS3. -/
theorem test_fetch_past_memory : gives (step { base with pc := 0xFFF }) (fun t => t.status = .faulted ∧ t.pc = 0xFFF
    ∧ t.redraws = 0 ∧ t.fault = some (faultRecord .memoryOutOfBounds (some 0xFFF) none (some 0xFFF) (some 2))) = true :=
    by decide

/-- Vector S10. -/
theorem test_unknown_word : runs 0xE123 base (fun t => faults .unknownOpcode none none t ∧ t.fault.bind (·.word) =
    some 0xE123) = true := by decide

/-- Vector DS11. -/
theorem test_halted_core_does_nothing : step { base with status := .halted } = .next { base with status := .halted }
    := rfl

/-- Vectors RS2 and DS9. -/
theorem test_first_step_of_an_empty_program : gives (step State.reset) (fun t => t.status = .halted ∧ t.pc = 0x202 ∧
    t.fault = none ∧ t.redraws = 0) = true := by decide

/-- Vector DS10. -/
theorem test_zero_word_unknown_without_halt : gives (step (fresh noHalt)) (faults .unknownOpcode none none) = true
    := by decide

/-! ### Display (2.2) -/


/-- Vector DR1. -/
theorem test_cls : runs 0x00E0 { base with pix := setPixel base.pix 77 true, flag := 1 } (fun t => pixelAt t.pix 77
    = false ∧ t.flag = 1 ∧ t.redraws = 1) = true := by decide +kernel

/-- Vector DR3: columns 62 and 63 only. -/
theorem test_drw_clips_at_the_right_edge : runs 0xD011 (poke ({ base with index := 0x300 }.setV 0 62) 0x300 0xFF)
    (fun t => t.pix[0] = 0xC000000000000000 ∧ t.pix[1] = 0 ∧ t.flag = 0) = true := by decide +kernel

/-- Vector DR4: an incoming 0 clears the cell, and no collision. -/
theorem test_drw_overwrites : runs 0xD011 (poke { base with index := 0x300, pix := setPixel base.pix 0 true } 0x300
    0x7F) (fun t => t.pix[0] = 0xFE ∧ t.flag = 0) = true := by decide +kernel

/-! ### Control flow (2.3) -/


/-- Vector DS9. -/
theorem test_halt : runs 0x0000 base (fun t => t.status = .halted ∧ t.pc = 0x202 ∧ t.redraws = 0) = true := by decide

/-- Vector CF6. -/
theorem test_ret_documented : runs 0x00EE { base with sp := 2, stack := (base.stack.set 1 0x300).set 2 0x400 } (fun
    t => t.sp = 1 ∧ t.pc = 0x300) = true := by decide

/-- Vector CF8. -/
theorem test_ret_returning : runs 0x00EE { fresh returning with sp := 1, stack := base.stack.set 1 0x202 } (fun t =>
    t.sp = 0 ∧ t.pc = 0x202) = true := by decide

/-- Vector CF1. -/
theorem test_jp : runs 0x1ABC base (fun t => t.pc = 0xABC) = true := by decide

/-- Vector CF3. -/
theorem test_call_documented : runs 0x2300 base (fun t => t.sp = 1 ∧ t.stack[1] = 0x300 ∧ t.pc = 0x300) = true := by
    decide

/-- Vector CF5. -/
theorem test_call_overflow : runs 0x2300 { base with sp := 15 } (fun t => faults .stackOverflow none none t ∧ t.sp =
    15) = true := by decide

/-- Vector CF10. -/
theorem test_se_byte_skips : runs 0x3342 (base.setV 3 0x42) (fun t => t.pc = 0x204) = true := by decide

/-- Vector CF11. -/
theorem test_se_byte_falls_through : runs 0x3342 (base.setV 3 0x41) (fun t => t.pc = 0x202) = true := by decide

/-- Vector CF12. -/
theorem test_sne_byte_skips : runs 0x4342 (base.setV 3 0x41) (fun t => t.pc = 0x204) = true := by decide

/-- Vector CF13. -/
theorem test_sne_byte_falls_through : runs 0x4342 (base.setV 3 0x42) (fun t => t.pc = 0x202) = true := by decide

/-- Vector CF14. -/
theorem test_se_register_skips : runs 0x5120 ((base.setV 1 7).setV 2 7) (fun t => t.pc = 0x204) = true := by decide

/-- Vector CF16. -/
theorem test_sne_register_skips : runs 0x9120 ((base.setV 1 7).setV 2 8) (fun t => t.pc = 0x204) = true := by decide

/-- Vector CF17. -/
theorem test_sne_register_same : runs 0x9110 (base.setV 1 7) (fun t => t.pc = 0x202) = true := by decide

/-- Vector CF20. -/
theorem test_jp_v0_above_memory : runs 0xBFFF (base.setV 0 0xFF) (fun t => t.pc = 0x10FE) = true := by decide

/-- Vector CF21. -/
theorem test_jp_v0_uses_v0 : runs 0xB500 ((base.setV 0 1).setV 5 0x80) (fun t => t.pc = 0x501) = true := by decide

/-! ### ALU (2.4) -/


/-- Vectors AL1 and DS1. -/
theorem test_ld_byte : runs 0x6A2F base (fun t => t.getV 10 = 0x2F ∧ t.pc = 0x202 ∧ t.redraws = 1) = true := by decide

/-- Vector AL28. -/
theorem test_ld_byte_aliased : runs 0x6F05 { fresh aliased with flag := 1 } (fun t => t.getV 15 = 5 ∧ t.flag = 5) =
    true := by decide

/-- Vector AL2. -/
theorem test_add_byte_wraps : runs 0x71FF (base.setV 1 5) (fun t => t.getV 1 = 4 ∧ t.flag = 0) = true := by decide

/-- Vector AL4. -/
theorem test_ld_register : runs 0x8120 (base.setV 2 0x99) (fun t => t.getV 1 = 0x99) = true := by decide

/-- Vector S6. -/
theorem test_or : runs 0x8011 (({ base with flag := 1 }.setV 0 0xF0).setV 1 0x3C) (fun t => t.getV 0 = 0xFC ∧ t.flag
    = 1) = true := by decide

/-- Vector S6. -/
theorem test_and : runs 0x8012 (({ base with flag := 1 }.setV 0 0xF0).setV 1 0x3C) (fun t => t.getV 0 = 0x30 ∧
    t.flag = 1) = true := by decide

/-- Vector S6. -/
theorem test_xor : runs 0x8013 (({ base with flag := 1 }.setV 0 0xF0).setV 1 0x3C) (fun t => t.getV 0 = 0xCC ∧
    t.flag = 1) = true := by decide

/-- Vector S4. -/
theorem test_add_carries : runs 0x8014 ((base.setV 0 255).setV 1 255) (fun t => t.getV 0 = 0xFE ∧ t.flag = 1) = true
    := by decide

/-- Vector AL26. -/
theorem test_add_aliased_loses_the_flag : runs 0x8FE4 (((fresh aliased).setV 15 200).setV 14 100) (fun t => t.getV
    15 = 44 ∧ t.flag = 44) = true := by decide

/-- Vector S5. -/
theorem test_sub_negative : runs 0x8015 ((base.setV 0 25).setV 1 50) (fun t => t.getV 0 = 231 ∧ t.flag = 0) = true
    := by decide

/-- Vector AL12: a difference of 0 gives flag 0. -/
theorem test_sub_zero : runs 0x8015 ((base.setV 0 7).setV 1 7) (fun t => t.getV 0 = 0 ∧ t.flag = 0) = true := by decide

/-- Vector AL15. -/
theorem test_subn_positive : runs 0x8017 ((base.setV 0 25).setV 1 50) (fun t => t.getV 0 = 25 ∧ t.flag = 1) = true
    := by decide

/-- Vector AL16. -/
theorem test_subn_negative : runs 0x8017 ((base.setV 0 50).setV 1 25) (fun t => t.getV 0 = 231 ∧ t.flag = 0) = true
    := by decide

/-- Vector AL18. -/
theorem test_shr_vy : runs 0x8016 ((base.setV 0 0).setV 1 5) (fun t => t.getV 0 = 2 ∧ t.flag = 1 ∧ t.getV 1 = 5) =
    true := by decide

/-- Vector AL20. -/
theorem test_shr_vx : runs 0x8016 (((fresh vxShift).setV 0 0x81).setV 1 0) (fun t => t.getV 0 = 0x40 ∧ t.flag = 1) =
    true := by decide

/-- Vector AL21. -/
theorem test_shl_drops_the_top_bit : runs 0x801E ((base.setV 0 0).setV 1 0x81) (fun t => t.getV 0 = 2 ∧ t.flag = 1)
    = true := by decide

/-- Vector AL22. -/
theorem test_shl_keeps_a_small_value : runs 0x801E ((base.setV 0 0).setV 1 0x7F) (fun t => t.getV 0 = 0xFE ∧ t.flag
    = 0) = true := by decide

/-- Vector AL24: the store of a draw of A7. -/
theorem test_rnd_masks : (base.storeRandom 0xA7 3 0x0F).getV 3 = 0x07 := by decide

/-! ### Index and memory (2.5) -/


/-- Vector IM1. -/
theorem test_ld_i : runs 0xA300 base (fun t => t.index = 0x300) = true := by decide

/-- Vector IM3. -/
theorem test_add_i_past_memory : runs 0xF11E ({ base with index := 0xFFF }.setV 1 1) (fun t => t.index = 0x1000 ∧
    t.status = .running) = true := by decide

/-- Vector IM4. -/
theorem test_add_i_wraps : runs 0xF11E ({ base with index := 0xFFFF }.setV 1 2) (fun t => t.index = 1) = true := by
    decide

/-- Vector IM6. -/
theorem test_ld_f : runs 0xF229 (base.setV 2 0x0F) (fun t => t.index = 0x09B) = true := by decide

/-- Vector IM7. -/
theorem test_ld_f_undefined : runs 0xF229 ({ base with index := 0x300 }.setV 2 0x10) (fun t => faults
    .undefinedOperand (some 0x10) (some 1) t ∧ t.index = 0x300) = true := by decide

/-- Vector IM9. -/
theorem test_ld_b_literal : runs 0xF033 (poke ({ base with index := 0x300 }.setV 0 42) 0x302 0xFF) (fun t =>
    t.readByte 0x300 = 4 ∧ t.readByte 0x301 = 2 ∧ t.readByte 0x302 = 0xFF) = true := by decide

/-- Vector IM10. -/
theorem test_ld_b_padded : runs 0xF033 ({ fresh padded with index := 0x300 }.setV 0 42) (fun t => t.readByte 0x300 =
    0 ∧ t.readByte 0x301 = 4 ∧ t.readByte 0x302 = 2) = true := by decide

/-- Vector IM23: the glyph table is writable. -/
theorem test_ld_mem_vx : runs 0xF055 ({ base with index := 0x060 }.setV 0 0xAA) (fun t => t.readByte 0x060 = 0xAA ∧
    t.index = 0x060) = true := by decide

/-- Vector IM18. -/
theorem test_ld_mem_vx_out_of_bounds : runs 0xFF55 { base with index := 0xFF1 } (fun t => faults .memoryOutOfBounds
    (some 0xFF1) (some 16) t ∧ t.readByte 0xFF1 = 0) = true := by decide

/-- Vector IM21. -/
theorem test_ld_vx_mem : runs 0xF465 { base with index := 0x050 } (fun t => t.getV 0 = 0xF0 ∧ t.getV 1 = 0x90 ∧
    t.getV 4 = 0xF0 ∧ t.getV 5 = 0) = true := by decide

/-- Vector IM22. -/
theorem test_ld_vx_mem_aliased : runs 0xFF65 (poke { fresh aliased with index := 0x300 } 0x30F 0x77) (fun t =>
    t.getV 15 = 0x77 ∧ t.flag = 0x77) = true := by decide +kernel

/-! ### Timers (2.6): the free sample is given as an argument -/


/-- Vector TM1. -/
theorem test_ld_vx_dt : { base with tdt := 1000 }.elapsedByte 1300 = 45 := by decide

/-- Vector TM4. -/
theorem test_ld_vx_dt_modulo_255 : { base with tdt := 1000 }.elapsedByte 1255 = 0 := by decide

/-- Vector TM7. -/
theorem test_ld_dt_vx : ((base.writeDelay 60 5000).dt, (base.writeDelay 60 5000).tdt) = (60, 5000) := by decide

/-- Vector TM8. -/
theorem test_ld_st_vx : ((base.writeSound 10 7000).st, (base.writeSound 10 7000).tst) = (10, 7000) := by decide

/-! ### Input (2.7) -/


/-- Vector IN1. -/
theorem test_skp_without_a_keypad : runs 0xE19E base (faults .unimplementedOpcode none none) = true := by decide

/-- Vector IN6. -/
theorem test_skp_undefined_code : runs 0xE19E ((fresh keys).setV 1 0x10) (faults .undefinedOperand (some 0x10) (some
    1)) = true := by decide

/-- Vector IN2. -/
theorem test_sknp_without_a_keypad : runs 0xE1A1 base (faults .unimplementedOpcode none none) = true := by decide

/-! ### Reset (2.8) -/


/-- Vector RS1. -/
theorem test_reset_loads_the_program : ((State.resetWith Config.default [0x12, 0x00] 0).readByte 0x200,
    (State.resetWith Config.default [0x12, 0x00] 0).readByte 0x050, (State.resetWith Config.default [0x12, 0x00]
    0).readByte 0x202) = (0x12, 0xF0, 0) := by decide

/-- Vector RS4. -/
theorem test_reset_faults_on_a_long_program : ((State.resetWith Config.default (List.replicate 3585 0) 0).fault.map
    (fun r => (r.kind, r.code, r.size))) = some (.programTooLarge, 5, some 3585) := by decide +kernel

/-- Vector RS5. -/
theorem test_reset_one_byte_program : gives (step (State.resetWith Config.default [0x60] 0)) (fun t => t.getV 0 = 0
    ∧ t.pc = 0x202 ∧ t.status = .running) = true := by decide

/-! ### Witnesses: for each statement with hypotheses, a case of each clause that meets them all -/


/-- The halt row, and a row of every configuration. -/
theorem witness_DecodeOfEncodeIsIdentity : Instr.wellFormed Config.default .halt = true ∧ Instr.wellFormed noHalt
    (.ldVxMem 15) = true := by decide

/-- Words that decode. -/
theorem witness_EncodeOfDecodeIsIdentity : decodeWord true 0x0000 = some .halt ∧ decodeWord false 0x8FE4 = some
    (.addVxVy 15 14) := by decide

/-- A word of a row, and one of none. -/
theorem witness_OpcodeRowsAreDisjoint : 0x8FE4#16 &&& rowMask (.addVxVy 0 0) = rowMatch (.addVxVy 0 0) ∧ 0x8FE4#16
    &&& rowMask (.addVxVy 1 1) = rowMatch (.addVxVy 1 1) ∧ decodeWord true 0x8FE4 = some (.addVxVy 15 14) ∧ decodeWord
    true 0x0123 = none := by decide

/-- The source's example. -/
theorem witness_NibblesOfTwoBytes : nibblesOf 0xAB 0xCD = (0xA, 0xB, 0xC, 0xD) := by decide

/-- The last word of memory, and an odd address. -/
theorem witness_FetchIsBigEndian : ({ base with pc := 0xFFE } : State).pc.toNat ≤ 0xFFE ∧ ({ base with pc := 0x201 }
    : State).pc.toNat ≤ 0xFFE := by decide

/-- The first instruction after reset. -/
theorem witness_StepRunsTheDecodedInstruction : base.status = .running ∧ base.fetchWord = some 0x0000 ∧ decodeWord
    base.cfg.haltOnZero 0x0000 = some .halt ∧ (∃ u, exec .halt base.advance = .next u) := ⟨rfl, rfl, rfl, _, rfl⟩

/-- Both sides of the bound, a known and an unknown word. -/
theorem witness_FetchAndAdvance : (0xFFE < ({ base with pc := 0xFFF } : State).pc.toNat ∧ base.status = .running) ∧
    (({ base with pc := 0xFFE } : State).pc.toNat ≤ 0xFFE ∧ base.fetchWord = some 0x0000 ∧ decodeWord true 0x0000 = some
    .halt) ∧ ((fresh noHalt).status = .running ∧ (fresh noHalt).fetchWord = some 0x0000 ∧ decodeWord (fresh
    noHalt).cfg.haltOnZero 0x0000 = none) := by decide

/-- The unknown word's step answers. -/
theorem witness_FetchAndAdvance_unknown : ∃ t, step (fresh noHalt) = .next t := ⟨_, rfl⟩

/-- An unknown word where `pc` points, and a SYS word. -/
theorem witness_UnknownWordFaults : (fresh noHalt).status = .running ∧ (fresh noHalt).fetchWord = some 0x0000 ∧
    decodeWord (fresh noHalt).cfg.haltOnZero 0x0000 = none ∧ (0x123 : Addr) ≠ 0x0E0 ∧ (0x123 : Addr) ≠ 0x0EE ∧ (0x123 :
    Addr) ≠ 0x000 := by decide

/-- A halted core and a faulted one. -/
theorem witness_StoppedCoreDoesNothing : ({ base with status := .halted } : State).status ≠ .running ∧ ({ base with
    status := .faulted } : State).status ≠ .running := by decide

/-- A step that completes and one that halts. -/
theorem witness_OneRedrawPerCompletedStep : base.status = .running ∧ runs 0x6A2F base (fun t => t.status = .running)
    = true ∧ gives (step base) (fun t => decide (t.status ≠ .running)) = true := by decide

/-- The longest program that fits; both fills; the last pixel. -/
theorem witness_ResetLeavesTheCells : (List.replicate 3584 (0 : Byte)).length ≤ 3584 ∧ Config.default.resetFill =
    .zero ∧ ({ Config.default with resetFill := .draw } : Config).resetFill = .draw ∧ 31 < 32 ∧ 63 < 64 := ⟨by rw
    [List.length_replicate], rfl, rfl, by decide, by decide⟩

/-- Addresses at the edges of the table and the program. -/
theorem witness_ResetLeavesMemory : (0x04F < 4096 ∧ ¬ (0x050 ≤ 0x04F ∧ 0x04F < 0x0A0)) ∧ ¬ (0x050 ≤ 0x0A0 ∧ 0x0A0 <
    0x0A0) ∧ ¬ (0x200 ≤ 0x1FF ∧ 0x1FF < 0x200 + 3584) ∧ (List.replicate 3584 (0 : Byte)).length ≤ 3584 := ⟨by decide, by
    decide, by decide, by rw [List.length_replicate]⟩

/-- The shortest program that does not fit. -/
theorem witness_OversizedProgramFaults : 3584 < (List.replicate 3585 (0 : Byte)).length := by simp only
    [List.length_replicate, Nat.reduceLT]

/-- The default fill. -/
theorem witness_ResetMeetsTheInvariant : Config.default.resetFill = .zero := by decide

/-- Reset meets the invariant and steps. -/
theorem witness_StepKeepsTheInvariant : base.Inv ∧ ∃ t, step base = .next t := ⟨⟨by decide, ⟨by decide, fun _ h =>
    nomatch h⟩, by decide, by decide⟩, _, rfl⟩

/-- Reset. -/
theorem witness_StepKeepsFlagABit : base.cfg.flagAlias = .separate ∧ base.flagIsBit ∧ ∃ t, step base = .next t :=
    ⟨rfl, .inl rfl, _, rfl⟩

/-- Reset. -/
theorem witness_StepKeepsPcBounded : base.pcBounded ∧ ∃ t, step base = .next t := ⟨⟨by decide, by decide⟩, _, rfl⟩

/-- A call writes slot 1. -/
theorem witness_OnlyCallWritesTheStack : (∃ t, step base = .next t) ∧ gives (exec (.callAddr 0x300) base) (fun t =>
    decide (t.stack[1] ≠ base.stack[1] ∧ t.sp = 1)) = true := ⟨⟨_, rfl⟩, by decide⟩

/-- Reset. -/
theorem witness_ConfigStaticAndTimeMonotone : ∃ t, step base = .next t := ⟨_, rfl⟩

/-- A fetch that faults and an instruction that does. -/
theorem witness_FaultingStepWritesNothing : (0xFFE < ({ base with pc := 0x1000 } : State).pc.toNat ∧ gives (step {
    base with pc := 0x1000 }) (fun t => t.status = .faulted) = true) ∧ (base.pc.toNat ≤ 0xFFE ∧ runs 0x00EE base (fun t
    => t.status = .faulted) = true) := by decide

/-- Each premise, met by an instruction that writes. -/
theorem witness_OnlyNamedInstructionsWrite : gives (exec (.callAddr 0x300) base) (fun t => decide (t.sp ≠ base.sp))
    = true ∧ gives (exec .cls { base with pix := setPixel base.pix 0 true }) (fun t => decide (pixelAt t.pix 0 ≠ true))
    = true ∧ gives (exec (.ldMemVx 0) (base.setV 0 0xAA)) (fun t => decide (t.readByte 0x200 ≠ base.readByte 0x200)) =
    true ∧ gives (exec (.ldIAddr 0x300) base) (fun t => decide (t.index ≠ base.index)) = true ∧ gives (exec (.ldDTVx 0)
    (base.setV 0 1)) (fun t => decide (t.dt ≠ base.dt)) = true ∧ gives (exec (.ldSTVx 0) (base.setV 0 1)) (fun t =>
    decide (t.st ≠ base.st)) = true ∧ gives (exec .halt base) (fun t => t.status = .halted) = true := by decide +kernel

/-- A carry. -/
theorem witness_OnlyFlagInstructionsWriteTheFlag : base.cfg.flagAlias = .separate ∧ gives (exec (.addVxVy 0 0)
    (base.setV 0 255)) (fun t => decide (t.flag ≠ base.flag)) = true := by decide

/-- Two registers, and both aliasings. -/
theorem witness_RegistersAndFlagAlias : (14 : Nibble) ≠ 15 ∧ (fresh aliased).cfg.flagAlias = .vf ∧
    base.cfg.flagAlias = .separate := by decide

/-- The three clauses at their bounds, and no row at all. -/
theorem witness_DrwDrawsWithCollision : (0 < (3 : Nibble).toNat ∧ 4096 < ({ base with index := 0xFFE } :
    State).index.toNat + (3 : Nibble).toNat) ∧ (({ base with index := 0xFFD }.setV 1 30 : State).index.toNat + (3 :
    Nibble).toNat ≤ 4096 ∧ 32 < (({ base with index := 0xFFD }.setV 1 30 : State).getV 1).toNat % 32 + (3 :
    Nibble).toNat) ∧ (({ base with index := 0xFFD }.setV 1 29 : State).index.toNat + (3 : Nibble).toNat ≤ 4096 ∧ (({
    base with index := 0xFFD }.setV 1 29 : State).getV 1).toNat % 32 + (3 : Nibble).toNat ≤ 32) ∧ ((0 : Nibble).toNat =
    0 ∧ (({ base with index := 0xFFFF }.setV 1 31 : State).getV 1).toNat % 32 + (0 : Nibble).toNat ≤ 32) := by decide

/-- A 1 that meets a 1. -/
theorem witness_DrwDrawsWithCollision_hit : 0 < (1 : Nibble).toNat ∧ (poke { base with index := 0x300 } 0x300
    0x80).readByte 0x300 = 0x80 ∧ (0x80 : Byte).getLsbD 7 = true ∧ pixelAt (setPixel base.pix 0 true) 0 = true := by
    decide +kernel

/-- One row at the origin, twice. -/
theorem witness_DrawingTwice : base.index.toNat + (1 : Nibble).toNat ≤ 4096 ∧ (base.getV 1).toNat % 32 + (1 :
    Nibble).toNat ≤ 32 ∧ base.isFlagCell 0 = false ∧ base.isFlagCell 1 = false ∧ ∃ t, exec (.drwVxVyNibble 0 1 1) base =
    .next t ∧ ∃ u, exec (.drwVxVyNibble 0 1 1) t = .next u := ⟨by decide, by decide, by decide, by decide, _, rfl, _,
    rfl⟩

/-- The default configuration. -/
theorem witness_HaltStopsTheCore : base.cfg.haltOnZero = true := by decide

/-- The empty stack, one call deep and fifteen, both disciplines. -/
theorem witness_RetPopsTheStack : base.sp = 0 ∧ (0 : Fin 16).val + 1 = ({ base with sp := 1 } : State).sp.val ∧ (14
    : Fin 16).val + 1 = ({ base with sp := 15 } : State).sp.val ∧ base.cfg.stackDiscipline = .documented ∧ (fresh
    returning).cfg.stackDiscipline = .returnAddress := by decide

/-- The full stack, the first call and the last that fits, both disciplines. -/
theorem witness_CallPushesTheStack : ({ base with sp := 15 } : State).sp = 15 ∧ (1 : Fin 16).val = base.sp.val + 1 ∧
    (15 : Fin 16).val = ({ base with sp := 14 } : State).sp.val + 1 ∧ base.cfg.stackDiscipline = .documented ∧ (fresh
    returning).cfg.stackDiscipline = .returnAddress := by decide

/-- A first call. -/
theorem witness_CallThenReturnRestoresPc : (fresh returning).cfg.stackDiscipline = .returnAddress ∧ (fresh
    returning).sp ≠ 15 ∧ ∃ t, exec (.callAddr 0x300) (fresh returning) = .next t := ⟨rfl, by decide, _, rfl⟩

/-- Registers that are not the flag's cell (for the ADD, SUB, SUBN and shift statements). -/
theorem witness_AddSetsTheCarry : base.isFlagCell 15 = false ∧ (fresh aliased).isFlagCell 14 = false := by decide

/-- Registers that are not the flag's cell. -/
theorem witness_SubSetsThePositiveFlag : base.isFlagCell 15 = false ∧ (fresh aliased).isFlagCell 14 = false := by decide

/-- Registers that are not the flag's cell. -/
theorem witness_ShiftsSetTheDroppedBit : base.isFlagCell 15 = false ∧ (fresh aliased).isFlagCell 14 = false := by decide

/-- A bit the mask clears. -/
theorem witness_RndMasksTheDraw : (0x0F : Byte).getLsbD 4 = false := by decide

/-- The last digit, and the first value past it. -/
theorem witness_LdFPointsAtTheGlyph : ((base.setV 0 0xF).getV 0).toNat ≤ 0xF ∧ 0xF < ((base.setV 0 0x10).getV
    0).toNat := by decide

/-- Canonical memory; three padded digits that fit and that do not; one literal digit in the last byte. -/
theorem witness_LdBStoresTheDigits : ({ fresh padded with index := 0xFFD } : State).memWf = true ∧ padded.bcdMode =
    .padded ∧ ({ fresh padded with index := 0xFFD } : State).index.toNat + 3 ≤ 4096 ∧ 4096 < ({ fresh padded with index
    := 0xFFE } : State).index.toNat + 3 ∧ base.cfg.bcdMode = .literal ∧ (base.getV 0).toNat < 10 ∧ ({ base with index :=
    0xFFF } : State).index.toNat + 1 ≤ 4096 := by decide

/-- Sixteen registers that fit, and that do not. -/
theorem witness_LdMemStoresTheRegisters : base.memWf = true ∧ ({ base with index := 0xFF0 } : State).index.toNat +
    (15 : Nibble).toNat ≤ 0xFFF ∧ 0xFFF < ({ base with index := 0xFF1 } : State).index.toNat + (15 : Nibble).toNat := by
    decide

/-- Sixteen registers that fit, and that do not. -/
theorem witness_LdMemLoadsTheRegisters : ({ base with index := 0xFF0 } : State).index.toNat + (15 : Nibble).toNat ≤
    0xFFF ∧ 0xFFF < ({ base with index := 0xFF1 } : State).index.toNat + (15 : Nibble).toNat := by decide

/-- All sixteen registers, reloaded in the state the store left. -/
theorem witness_StoreThenLoadRestoresRegisters : base.memWf = true ∧ base.index.toNat + (15 : Nibble).toNat ≤ 0xFFF
    ∧ ∃ t, exec (.ldMemVx 15) base = .next t ∧ ∃ u : State, u.cfg = t.cfg ∧ u.mem = t.mem ∧ u.index = t.index := ⟨by
    decide, by decide, _, rfl, _, rfl, rfl, rfl⟩

/-- `V0` and `V1` stored over the word that `pc` points at: `I` and `pc` are both 0x200. -/
theorem witness_StoreIsSeenByTheNextFetch : base.memWf = true ∧ base.index.toNat + (1 : Nibble).toNat ≤ 0xFFF ∧ (∃
    t, exec (.ldMemVx 1) base = .next t) ∧ (1 : Nibble).toNat = (0 : Nibble).toNat + 1 ∧ (1 : Nibble).toNat ≤ (1 :
    Nibble).toNat ∧ base.pc.toNat = base.index.toNat + (0 : Nibble).toNat := ⟨by decide, by decide, ⟨_, rfl⟩, by decide,
    by decide, by decide⟩

/-- Reset: both are `t0`. -/
theorem witness_LdDTReadsTheElapsedTime : base.tdt ≤ base.clock := by decide

/-- No keypad; a keypad, with the first code that is none and the last that is one. -/
theorem witness_KeySkips : base.cfg.keypad = .absent ∧ (fresh keys).cfg.keypad = .present ∧ 0xF < (((fresh
    keys).setV 1 0x10).getV 1).toNat ∧ (15 : Nibble).toNat = (((fresh keys).setV 1 0xF).getV 1).toNat := by decide

end Sys2Proof.Tests
end

section
/-! SUPPORT. What the rules with more than one outcome can do: one inversion lemma per rule, from which the claims about
runs follow. -/

namespace Sys2Proof.Machine

/-! ### Shared operations -/

/-- A raise from a rule answers the faulted state, with the instruction's address and word in its record (R98). -/
theorem raiseAt_eq_next {i : Instr} {k : FaultKind} {a n : Option Nat} {s t : State} :
    raiseAt i k a n s = .next t ↔ t = s.raise k (some s.instrAddr) (some (encode i)) a n := by
  simp [raiseAt, eq_comm]

/-- A time sample is no earlier than the one before (R109). -/
theorem State.clock_le_nowSample (s : State) : s.clock ≤ s.nowSample := Nat.le_add_right _ _

@[simp] theorem State.cfg_setVs (s : State) (j : Nat) (bs : List Byte) : (s.setVs j bs).cfg = s.cfg := by
  obtain ⟨_, _, h⟩ := s.setVs_rest bs j
  rw [h]

@[simp] theorem State.clock_setVs (s : State) (j : Nat) (bs : List Byte) : (s.setVs j bs).clock = s.clock := by
  obtain ⟨_, _, h⟩ := s.setVs_rest bs j
  rw [h]

/-! ### The rules with more than one outcome -/

/-- HALT halts, or is an unknown word where the configuration has no halt row (R64, R55). -/
theorem execHalt_cases {s t : State} (h : execHalt s = .next t) :
    (s.cfg.haltOnZero = true ∧ t = { s with status := .halted }) ∨
    (s.cfg.haltOnZero = false ∧ t = s.raiseUnknown (encode .halt)) := by
  unfold execHalt at h
  split at h
  next hz => exact .inl ⟨hz, by simpa using h.symm⟩
  next hz => exact .inr ⟨by simpa using hz, by simpa using h.symm⟩

/-- RET from a stack that is not empty under RETURN_ADDRESS pops the address at `sp` (R65). -/
theorem execRet_of_returnAddress {s : State} (hsp : s.sp ≠ 0) (hd : s.cfg.stackDiscipline = .returnAddress) :
    execRet s = .next { s with sp := s.sp - 1, pc := s.stack[s.sp.val] } := by
  simp [execRet, hsp, hd]

/-- RET underflows on an empty stack, and otherwise pops a slot into `pc` (R65). -/
theorem execRet_cases {s t : State} (h : execRet s = .next t) :
    (s.sp = 0 ∧ t = s.raise .stackUnderflow (some s.instrAddr) (some (encode .ret)) none none) ∨
    (s.sp ≠ 0 ∧ ((s.cfg.stackDiscipline = .documented ∧ t = { s with sp := s.sp - 1, pc := s.stack[(s.sp - 1).val] }) ∨
      (s.cfg.stackDiscipline = .returnAddress ∧ t = { s with sp := s.sp - 1, pc := s.stack[s.sp.val] }))) := by
  unfold execRet at h
  split at h
  next hsp => exact .inl ⟨hsp, raiseAt_eq_next.1 h⟩
  next hsp =>
    split at h
    next hd => exact .inr ⟨hsp, .inl ⟨hd, by simpa using h.symm⟩⟩
    next hd => exact .inr ⟨hsp, .inr ⟨hd, by simpa using h.symm⟩⟩

/-- CALL overflows on a full stack, and otherwise pushes and jumps (R67). -/
theorem execCallAddr_cases {nnn : Addr} {s t : State} (h : execCallAddr nnn s = .next t) :
    (s.sp = 15 ∧ t = s.raise .stackOverflow (some s.instrAddr) (some (encode (.callAddr nnn))) none none) ∨
    (s.sp ≠ 15 ∧ t = { s with
      sp := s.sp + 1, stack := s.stack.set (s.sp + 1).val (s.pushedByCall nnn), pc := addrWord nnn }) := by
  unfold execCallAddr at h
  split at h
  next hsp => exact .inl ⟨hsp, raiseAt_eq_next.1 h⟩
  next hsp => exact .inr ⟨hsp, by simpa using h.symm⟩

/-- DRW raises one of its two faults, or draws its sprite and sets the flag (R63). -/
theorem execDrwVxVyNibble_cases {x y n : Nibble} {s t : State} (h : execDrwVxVyNibble x y n s = .next t) :
    (s.loadBytes s.index.toNat n.toNat = none ∧ t = s.raise .memoryOutOfBounds (some s.instrAddr)
      (some (encode (.drwVxVyNibble x y n))) (some s.index.toNat) (some n.toNat)) ∨
    ∃ sprite, s.loadBytes s.index.toNat n.toNat = some sprite ∧
      ((32 < s.startRow y + n.toNat ∧ t = s.raise .displayOutOfBounds (some s.instrAddr)
          (some (encode (.drwVxVyNibble x y n))) (some (s.startRow y)) (some n.toNat)) ∨
        (s.startRow y + n.toNat ≤ 32 ∧
          t = ({ s with pix := (drawRows (s.startColumn x) (s.startRow y) sprite (s.pix, false)).1 }.setFlag
            (drawRows (s.startColumn x) (s.startRow y) sprite (s.pix, false)).2))) := by
  simp only [execDrwVxVyNibble] at h
  split at h
  next hl => exact .inl ⟨hl, raiseAt_eq_next.1 h⟩
  next sprite hl =>
    refine .inr ⟨sprite, hl, ?_⟩
    split at h
    next hr => exact .inl ⟨hr, raiseAt_eq_next.1 h⟩
    next hr => exact .inr ⟨Nat.le_of_not_lt hr, by simpa using h.symm⟩

/-- LD F faults on a value that is no digit, and otherwise points `I` at the glyph (R88). -/
theorem execLdFVx_cases {x : Nibble} {s t : State} (h : execLdFVx x s = .next t) :
    (0xF < (s.getV x).toNat ∧ t = s.raise .undefinedOperand (some s.instrAddr) (some (encode (.ldFVx x)))
      (some (s.getV x).toNat) (some 1)) ∨
    ((s.getV x).toNat ≤ 0xF ∧ t = { s with index := glyphAddress (s.getV x) }) := by
  simp only [execLdFVx] at h
  split at h
  next hd => exact .inl ⟨hd, raiseAt_eq_next.1 h⟩
  next hd => exact .inr ⟨Nat.le_of_not_lt hd, by simpa using h.symm⟩

/-- LD B stores all digits or faults (R89). -/
theorem execLdBVx_cases {x : Nibble} {s t : State} (h : execLdBVx x s = .next t) :
    (s.storeBytes s.index.toNat (decimalDigits s.cfg.bcdMode (s.getV x)) = none ∧
      t = s.raise .memoryOutOfBounds (some s.instrAddr) (some (encode (.ldBVx x))) (some s.index.toNat)
        (some (decimalDigits s.cfg.bcdMode (s.getV x)).length)) ∨
    s.storeBytes s.index.toNat (decimalDigits s.cfg.bcdMode (s.getV x)) = some t := by
  simp only [execLdBVx] at h
  split at h
  next hs => exact .inl ⟨hs, raiseAt_eq_next.1 h⟩
  next u hs =>
    cases h
    exact .inr hs

/-- LD [I], Vx stores all registers or faults (R90). -/
theorem execLdMemVx_cases {x : Nibble} {s t : State} (h : execLdMemVx x s = .next t) :
    (s.storeBytes s.index.toNat (s.getVs x) = none ∧
      t = s.raise .memoryOutOfBounds (some s.instrAddr) (some (encode (.ldMemVx x))) (some s.index.toNat)
        (some (x.toNat + 1))) ∨
    s.storeBytes s.index.toNat (s.getVs x) = some t := by
  unfold execLdMemVx at h
  split at h
  next hs => exact .inl ⟨hs, raiseAt_eq_next.1 h⟩
  next u hs =>
    cases h
    exact .inr hs

/-- LD Vx, [I] loads all registers or faults (R91). -/
theorem execLdVxMem_cases {x : Nibble} {s t : State} (h : execLdVxMem x s = .next t) :
    (s.loadBytes s.index.toNat (x.toNat + 1) = none ∧
      t = s.raise .memoryOutOfBounds (some s.instrAddr) (some (encode (.ldVxMem x))) (some s.index.toNat)
        (some (x.toNat + 1))) ∨
    ∃ bytes, s.loadBytes s.index.toNat (x.toNat + 1) = some bytes ∧ t = s.setVs 0 bytes := by
  unfold execLdVxMem at h
  split at h
  next hl => exact .inl ⟨hl, raiseAt_eq_next.1 h⟩
  next bytes hl => exact .inr ⟨bytes, hl, by simpa using h.symm⟩

/-- A key skip raises one of its two faults, or takes one key sample (R95, R96). -/
theorem keySkip_cases {i : Instr} {wanted : Bool} {v : Byte} {s t : State} (h : keySkip i wanted v s = .next t) :
    (s.cfg.keypad = .absent ∧
      t = s.raise .unimplementedOpcode (some s.instrAddr) (some (encode i)) none none) ∨
    (s.cfg.keypad = .present ∧
      ((nibbleOf v = none ∧
          t = s.raise .undefinedOperand (some s.instrAddr) (some (encode i)) (some v.toNat) (some 1)) ∨
        ∃ k, nibbleOf v = some k ∧ t = s.tookDraw.skipIf (s.keySample k == wanted))) := by
  unfold keySkip at h
  split at h
  next hk => exact .inl ⟨hk, raiseAt_eq_next.1 h⟩
  next hk =>
    refine .inr ⟨hk, ?_⟩
    split at h
    next hv => exact .inl ⟨hv, raiseAt_eq_next.1 h⟩
    next k hv => exact .inr ⟨k, hv, by simpa using h.symm⟩

/-! ### The configuration and the time samples along a run -/

/-- A store keeps the configuration and the latest time sample. -/
theorem State.cfg_clock_storeBytes {s t : State} {a : Nat} {bs : List Byte} (h : s.storeBytes a bs = some t) :
    t.cfg = s.cfg ∧ t.clock = s.clock := by
  obtain ⟨_, rfl⟩ := State.storeBytes_eq_some.1 h
  exact ⟨rfl, rfl⟩

/-- A key skip keeps the configuration and the latest time sample: its one sample is of a key. -/
theorem cfg_clock_keySkip {i : Instr} {wanted : Bool} {v : Byte} {s t : State}
    (h : keySkip i wanted v s = .next t) : t.cfg = s.cfg ∧ t.clock = s.clock := by
  obtain ⟨_, rfl⟩ | ⟨_, ⟨_, rfl⟩ | ⟨_, _, rfl⟩⟩ := keySkip_cases h <;> simp

/-- No rule writes the configuration, and a rule keeps the latest time sample or takes the next one: only the timer
instructions take it (44_timers.md). -/
theorem exec_cfg_clock {i : Instr} {s t : State} (h : exec i s = .next t) :
    t.cfg = s.cfg ∧ (t.clock = s.clock ∨ t.clock = s.nowSample) := by
  cases i with
  | halt => obtain ⟨_, rfl⟩ | ⟨_, rfl⟩ := execHalt_cases h <;> simp
  | ret => obtain ⟨_, rfl⟩ | ⟨_, ⟨_, rfl⟩ | ⟨_, rfl⟩⟩ := execRet_cases h <;> simp
  | callAddr nnn => obtain ⟨_, rfl⟩ | ⟨_, rfl⟩ := execCallAddr_cases h <;> simp
  | drwVxVyNibble x y n =>
    obtain ⟨_, rfl⟩ | ⟨_, _, ⟨_, rfl⟩ | ⟨_, rfl⟩⟩ := execDrwVxVyNibble_cases h <;> simp
  | skpVx x => exact (cfg_clock_keySkip h).imp_right .inl
  | sknpVx x => exact (cfg_clock_keySkip h).imp_right .inl
  | ldFVx x => obtain ⟨_, rfl⟩ | ⟨_, rfl⟩ := execLdFVx_cases h <;> simp
  | ldBVx x =>
    obtain ⟨_, rfl⟩ | hs := execLdBVx_cases h
    · simp
    · exact (State.cfg_clock_storeBytes hs).imp_right .inl
  | ldMemVx x =>
    obtain ⟨_, rfl⟩ | hs := execLdMemVx_cases h
    · simp
    · exact (State.cfg_clock_storeBytes hs).imp_right .inl
  | ldVxMem x => obtain ⟨_, rfl⟩ | ⟨_, _, rfl⟩ := execLdVxMem_cases h <;> simp
  | rndVxByte x nn =>
    cases h
    simp [State.storeRandom]
  | _ =>
    -- the remaining rules have one outcome, an update the laws of the state know
    cases h
    simp

/-- Settles O22: of the four things a step can be, only an instruction's rule can take a time sample, and none writes
the configuration (`exec_cfg_clock`). -/
theorem configStaticAndTimeMonotone : Obligations.ConfigStaticAndTimeMonotone := by
  intro s t h
  obtain ⟨_, rfl⟩ | ⟨_, _, rfl⟩ | ⟨_, _, w, _, _, rfl⟩ | ⟨_, _, w, i, u, _, _, hu, rfl⟩ := step_cases h
  · exact ⟨rfl, le_rfl⟩
  · simp
  · simp
  · obtain ⟨hcfg, hclock⟩ := exec_cfg_clock hu
    have hle : s.clock ≤ u.clock := by
      obtain he | he := hclock
      · exact he.ge
      · exact he ▸ s.advance.clock_le_nowSample
    split <;> exact ⟨hcfg, hle⟩

/-! ### A call and the return after it -/

/-- A stack pointer that can be raised is not 0 once raised (R22). -/
theorem sp_add_one_ne_zero {sp : Fin 16} (h : sp ≠ 15) : sp + 1 ≠ 0 := fun h0 =>
  h (eq_neg_of_add_eq_zero_left h0)

/-- Settles O34: the call pushes the advanced `pc` at `sp + 1`, which is the slot the return reads. -/
theorem callThenReturnRestoresPc : Obligations.CallThenReturnRestoresPc := by
  intro nnn s t p hd hsp h
  obtain ⟨hfull, _⟩ | ⟨_, rfl⟩ := execCallAddr_cases h
  · exact absurd hfull hsp
  · refine ⟨_, execRet_of_returnAddress (sp_add_one_ne_zero hsp) hd, ?_, ?_⟩
    · simp [State.pushedByCall, hd]
    · simp

end Sys2Proof.Machine
end

section
/-! SUPPORT. What an instruction's rule can do to the state, said once as a relation, and how a property of states is
carried through a step; the claims about which rule writes what, and the invariants, follow from these two. -/

namespace Sys2Proof.Machine

/-! ### The cells that loading registers leaves alone (R91) -/

@[simp] theorem State.index_setVs (s : State) (j : Nat) (bs : List Byte) : (s.setVs j bs).index = s.index := by
  obtain ⟨_, _, h⟩ := s.setVs_rest bs j
  rw [h]

@[simp] theorem State.pc_setVs (s : State) (j : Nat) (bs : List Byte) : (s.setVs j bs).pc = s.pc := by
  obtain ⟨_, _, h⟩ := s.setVs_rest bs j
  rw [h]

@[simp] theorem State.stack_setVs (s : State) (j : Nat) (bs : List Byte) : (s.setVs j bs).stack = s.stack := by
  obtain ⟨_, _, h⟩ := s.setVs_rest bs j
  rw [h]

@[simp] theorem State.sp_setVs (s : State) (j : Nat) (bs : List Byte) : (s.setVs j bs).sp = s.sp := by
  obtain ⟨_, _, h⟩ := s.setVs_rest bs j
  rw [h]

@[simp] theorem State.dt_setVs (s : State) (j : Nat) (bs : List Byte) : (s.setVs j bs).dt = s.dt := by
  obtain ⟨_, _, h⟩ := s.setVs_rest bs j
  rw [h]

@[simp] theorem State.tdt_setVs (s : State) (j : Nat) (bs : List Byte) : (s.setVs j bs).tdt = s.tdt := by
  obtain ⟨_, _, h⟩ := s.setVs_rest bs j
  rw [h]

@[simp] theorem State.st_setVs (s : State) (j : Nat) (bs : List Byte) : (s.setVs j bs).st = s.st := by
  obtain ⟨_, _, h⟩ := s.setVs_rest bs j
  rw [h]

@[simp] theorem State.tst_setVs (s : State) (j : Nat) (bs : List Byte) : (s.setVs j bs).tst = s.tst := by
  obtain ⟨_, _, h⟩ := s.setVs_rest bs j
  rw [h]

@[simp] theorem State.pix_setVs (s : State) (j : Nat) (bs : List Byte) : (s.setVs j bs).pix = s.pix := by
  obtain ⟨_, _, h⟩ := s.setVs_rest bs j
  rw [h]

@[simp] theorem State.mem_setVs (s : State) (j : Nat) (bs : List Byte) : (s.setVs j bs).mem = s.mem := by
  obtain ⟨_, _, h⟩ := s.setVs_rest bs j
  rw [h]

@[simp] theorem State.status_setVs (s : State) (j : Nat) (bs : List Byte) : (s.setVs j bs).status = s.status := by
  obtain ⟨_, _, h⟩ := s.setVs_rest bs j
  rw [h]

@[simp] theorem State.fault_setVs (s : State) (j : Nat) (bs : List Byte) : (s.setVs j bs).fault = s.fault := by
  obtain ⟨_, _, h⟩ := s.setVs_rest bs j
  rw [h]

/-! ### What a rule can do -/

/-- The instructions that write the flag as a flag besides their result (42_alu.md R80 to R84). -/
def writesFlagAndV (i : Instr) : Prop :=
  ∃ x y, i = .addVxVy x y ∨ i = .subVxVy x y ∨ i = .subnVxVy x y ∨ i = .shrVxVy x y ∨ i = .shlVxVy x y

/-- The instructions that write `I` (43_index_memory.md R86 to R88). -/
def writesIndex (i : Instr) : Prop :=
  (∃ nnn, i = .ldIAddr nnn) ∨ (∃ x, i = .addIVx x) ∨ ∃ x, i = .ldFVx x

/-- The instructions that write memory (20_memory.md R32). -/
def writesMemory (i : Instr) : Prop := (∃ x, i = .ldBVx x) ∨ ∃ x, i = .ldMemVx x

/-- The next states an instruction's rule can answer, by the operation that makes them. An instruction is named where
a claim rests on which one it is; elsewhere any instruction is allowed. -/
inductive RuleEffect (s : State) : Instr → State → Prop
  | raise (i : Instr) (k : FaultKind) (ia w : Option Word) (a n : Option Nat) : RuleEffect s i (s.raise k ia w a n)
  | halt : RuleEffect s .halt { s with status := .halted }
  | clear (px : Pixels) : RuleEffect s .cls { s with pix := px }
  | draw (x y n : Nibble) (px : Pixels) (b : Bool) :
      RuleEffect s (.drwVxVyNibble x y n) ({ s with pix := px }.setFlag b)
  | ret (sp k : Fin 16) : RuleEffect s .ret { s with sp := sp, pc := s.stack[k.val] }
  | call (nnn : Addr) (hsp : s.sp ≠ 15) : RuleEffect s (.callAddr nnn)
      { s with sp := s.sp + 1, stack := s.stack.set (s.sp + 1).val (s.pushedByCall nnn), pc := addrWord nnn }
  | jump (i : Instr) (p : Word) (hp : p.toNat ≤ 0x10FE) : RuleEffect s i { s with pc := p }
  | skip (i : Instr) (b : Bool) : RuleEffect s i (s.skipIf b)
  | skipOnKey (i : Instr) (b : Bool) : RuleEffect s i (s.tookDraw.skipIf b)
  | setV (i : Instr) (x : Nibble) (v : Byte) : RuleEffect s i (s.setV x v)
  | setVFromDraw (i : Instr) (x : Nibble) (v : Byte) : RuleEffect s i (s.tookDraw.setV x v)
  | setVFromTime (i : Instr) (x : Nibble) (v : Byte) : RuleEffect s i (s.tookTime.setV x v)
  | setVs (i : Instr) (bs : List Byte) : RuleEffect s i (s.setVs 0 bs)
  | setFlagThenV (i : Instr) (x : Nibble) (b : Bool) (v : Byte) (hi : writesFlagAndV i) :
      RuleEffect s i (s.setFlagThenV x b v)
  | setIndex (i : Instr) (w : Word) (hi : writesIndex i) : RuleEffect s i { s with index := w }
  | writeDelay (x : Nibble) (v : Byte) : RuleEffect s (.ldDTVx x) (s.tookTime.writeDelay v s.nowSample)
  | writeSound (x : Nibble) (v : Byte) : RuleEffect s (.ldSTVx x) (s.tookTime.writeSound v s.nowSample)
  | store (i : Instr) (a : Nat) (bs : List Byte) (hi : writesMemory i) (hb : bs.length = 0 ∨ a + bs.length ≤ memSize) :
      RuleEffect s i { s with mem := Memory.writeList (Memory.background s.cfg) s.mem a bs }

/-- An address field is below 0x1000 (R50). -/
theorem toNat_addrWord_le (nnn : Addr) : (addrWord nnn).toNat ≤ 0xFFF := by
  have := nnn.isLt
  simp [addrWord]
  omega

/-- An address field and a byte add up without a wrap, to at most 0x10FE (R72). -/
theorem toNat_addrWord_add_byteWord_le (nnn : Addr) (b : Byte) : (addrWord nnn + byteWord b).toNat ≤ 0x10FE := by
  have := nnn.isLt
  have := b.isLt
  simp [addrWord, byteWord]
  omega

theorem ruleEffect_store {i : Instr} {s t : State} {a : Nat} {bs : List Byte} (hi : writesMemory i)
    (h : s.storeBytes a bs = some t) : RuleEffect s i t := by
  obtain ⟨hb, rfl⟩ := State.storeBytes_eq_some.1 h
  exact .store i a bs hi hb

theorem ruleEffect_keySkip {i : Instr} {wanted : Bool} {v : Byte} {s t : State} (h : keySkip i wanted v s = .next t) :
    RuleEffect s i t := by
  obtain ⟨_, rfl⟩ | ⟨_, ⟨_, rfl⟩ | ⟨k, _, rfl⟩⟩ := keySkip_cases h
  · exact .raise ..
  · exact .raise ..
  · exact .skipOnKey ..

/-- Every instruction's rule does one of these. -/
theorem exec_ruleEffect {i : Instr} {s t : State} (h : exec i s = .next t) : RuleEffect s i t := by
  cases i with
  | halt =>
    obtain ⟨_, rfl⟩ | ⟨_, rfl⟩ := execHalt_cases h
    · exact .halt
    · exact .raise ..
  | cls => cases h; exact .clear _
  | ret =>
    obtain ⟨_, rfl⟩ | ⟨_, ⟨_, rfl⟩ | ⟨_, rfl⟩⟩ := execRet_cases h
    · exact .raise ..
    · exact .ret _ (s.sp - 1)
    · exact .ret _ s.sp
  | callAddr nnn =>
    obtain ⟨_, rfl⟩ | ⟨hsp, rfl⟩ := execCallAddr_cases h
    · exact .raise ..
    · exact .call nnn hsp
  | jpAddr nnn => cases h; exact .jump _ _ ((toNat_addrWord_le nnn).trans (by decide))
  | jpV0Addr nnn => cases h; exact .jump _ _ (toNat_addrWord_add_byteWord_le nnn _)
  | seVxByte | sneVxByte | seVxVy | sneVxVy => cases h; exact .skip ..
  | skpVx | sknpVx => exact ruleEffect_keySkip h
  | ldVxByte | addVxByte | ldVxVy | orVxVy | andVxVy | xorVxVy => cases h; exact .setV ..
  | rndVxByte => cases h; exact .setVFromDraw ..
  | ldVxDT => cases h; exact .setVFromTime ..
  | addVxVy x y | subVxVy x y | subnVxVy x y | shrVxVy x y | shlVxVy x y =>
    cases h
    exact .setFlagThenV _ _ _ _ ⟨x, y, by simp⟩
  | drwVxVyNibble x y n =>
    obtain ⟨_, rfl⟩ | ⟨_, _, ⟨_, rfl⟩ | ⟨_, rfl⟩⟩ := execDrwVxVyNibble_cases h
    · exact .raise ..
    · exact .raise ..
    · exact .draw ..
  | ldIAddr | addIVx => cases h; exact .setIndex _ _ (by simp [writesIndex])
  | ldFVx x =>
    obtain ⟨_, rfl⟩ | ⟨_, rfl⟩ := execLdFVx_cases h
    · exact .raise ..
    · exact .setIndex _ _ (by simp [writesIndex])
  | ldDTVx x => cases h; exact .writeDelay ..
  | ldSTVx x => cases h; exact .writeSound ..
  | ldBVx x =>
    obtain ⟨_, rfl⟩ | hs := execLdBVx_cases h
    · exact .raise ..
    · exact ruleEffect_store (by simp [writesMemory]) hs
  | ldMemVx x =>
    obtain ⟨_, rfl⟩ | hs := execLdMemVx_cases h
    · exact .raise ..
    · exact ruleEffect_store (by simp [writesMemory]) hs
  | ldVxMem x =>
    obtain ⟨_, rfl⟩ | ⟨bytes, _, rfl⟩ := execLdVxMem_cases h
    · exact .raise ..
    · exact .setVs ..

/-! ### Carrying a property through a step -/

/-- A property holds after a step when it survives the advance, a raise and the redraw event, and every rule that can
run on the advanced state gives it (R57). -/
theorem step_keeps {P : State → Prop} {s t : State} (h : step s = .next t) (hs : P s)
    (advance : s.pc.toNat ≤ 0xFFE → P s.advance)
    (raise : ∀ u k ia w a n, P u → P (u.raise k ia w a n))
    (rule : ∀ i u, s.status = .running → s.pc.toNat ≤ 0xFFE → RuleEffect s.advance i u → P u)
    (redraw : ∀ u, P u → P u.emitRedraw) : P t := by
  obtain ⟨_, rfl⟩ | ⟨_, _, rfl⟩ | ⟨_, hpc, w, _, _, rfl⟩ | ⟨hrun, hpc, w, i, u, _, _, hu, rfl⟩ := step_cases h
  · exact hs
  · exact raise _ _ _ _ _ _ hs
  · exact raise _ _ _ _ _ _ (advance hpc)
  · have hP : P u := rule i u hrun hpc (exec_ruleEffect hu)
    split
    · exact redraw u hP
    · exact hP

/-! ### The invariant: memory, the fault record, the time stamps -/

/-- A raise fills the record with its kind's code (R98). -/
theorem State.recordWf_raise (s : State) (k : FaultKind) (ia w : Option Word) (a n : Option Nat) :
    (s.raise k ia w a n).recordWf := by
  simp [State.recordWf, faultRecord]

/-- The record of a state that has not faulted is well-formed exactly when it is empty (R28). -/
theorem State.recordWf_iff_of_ne_faulted {s : State} (h : s.status ≠ .faulted) : s.recordWf ↔ s.fault = none := by
  simp only [State.recordWf, h, false_iff]
  constructor
  · rintro ⟨hn, _⟩
    simpa using hn
  · intro hn
    simp [hn]

/-- A raise keeps the invariant. -/
theorem State.Inv.raise {s : State} (h : s.Inv) (k : FaultKind) (ia w : Option Word) (a n : Option Nat) :
    (s.raise k ia w a n).Inv := by
  obtain ⟨hm, _, hst⟩ := h
  exact ⟨hm, s.recordWf_raise k ia w a n, hst⟩

namespace RuleEffect

variable {s t : State} {i : Instr}

/-- The only change of memory is a store, which keeps the canonical form. -/
theorem memWf (h : RuleEffect s i t) (hw : s.memWf = true) : t.memWf = true := by
  cases h with
  | store i a bs _ hb => exact State.memWf_storeBytes hw (State.storeBytes_eq_some.2 ⟨hb, rfl⟩)
  | _ => simpa [State.memWf] using hw

/-- A running core's rule leaves the record empty, or raises and fills it. -/
theorem recordWf (h : RuleEffect s i t) (hrun : s.status = .running) (hw : s.recordWf) : t.recordWf := by
  have hnone : s.fault = none := (State.recordWf_iff_of_ne_faulted (by simp [hrun])).1 hw
  cases h with
  | raise => exact s.recordWf_raise ..
  | _ => exact (State.recordWf_iff_of_ne_faulted (by simp [hrun])).2 (by simpa using hnone)

/-- A stamp is only ever set to the sample just taken, and samples do not decrease (R109). -/
theorem stampsWf (h : RuleEffect s i t) (hw : s.stampsWf) : t.stampsWf := by
  obtain ⟨hd, hs⟩ := hw
  have hd' : s.tdt ≤ s.nowSample := hd.trans s.clock_le_nowSample
  have hs' : s.tst ≤ s.nowSample := hs.trans s.clock_le_nowSample
  cases h with
  | writeDelay => exact ⟨le_rfl, hs'⟩
  | writeSound => exact ⟨hd', le_rfl⟩
  | setVFromTime => simp [State.stampsWf, hd', hs']
  | _ => simp [State.stampsWf, hd, hs]

theorem inv (h : RuleEffect s i t) (hrun : s.status = .running) (hi : s.Inv) : t.Inv := by
  obtain ⟨hm, hr, hs⟩ := hi
  exact ⟨h.memWf hm, h.recordWf hrun hr, h.stampsWf hs⟩

end RuleEffect

/-- Settles O18: the invariant does not speak of `pc` or the redraw count, a raise keeps it, and so does every rule
(`RuleEffect.inv`). -/
theorem stepKeepsTheInvariant : Obligations.StepKeepsTheInvariant := by
  intro s t hi h
  exact step_keeps h hi (advance := fun _ => hi) (raise := fun _ k ia w a n hu => hu.raise k ia w a n)
    (rule := fun _ _ hrun _ he => he.inv hrun hi) (redraw := fun _ hu => hu)

end Sys2Proof.Machine
end

section
/-! SUPPORT. Which rule writes which cell (10_state.md R16 to R27), and the bounds of the flag, `pc` and the stack
along a run. -/

namespace Sys2Proof.Machine

/-- A flag write leaves 0 or 1 (R16). -/
theorem State.flagIsBit_setFlag (s : State) (b : Bool) : (s.setFlag b).flagIsBit := by
  cases b <;> simp [State.flagIsBit]

/-- Writing a register after the flag leaves a flag of its own as a bit (R16, R17). -/
theorem State.flagIsBit_setFlagThenV {s : State} (ha : s.cfg.flagAlias = .separate) (x : Nibble) (b : Bool) (v : Byte) :
    (s.setFlagThenV x b v).flagIsBit := by
  have hx : s.isFlagCell x = false := by simp [State.isFlagCell, ha]
  cases b <;> simp [State.flagIsBit, State.flag_setFlagThenV, hx]

/-- Where a register is the flag's cell, its write is a write of the flag (R17). -/
theorem State.setV_of_isFlagCell {s : State} {x : Nibble} (h : s.isFlagCell x = true) (v : Byte) :
    s.setV x v = { s with flag := v } := if_pos h

/-- What CALL pushes is at most an address' successor where `pc` is (R67). -/
theorem State.pushedByCall_le {s : State} (hpc : s.pc.toNat ≤ 0x1000) (nnn : Addr) :
    (s.pushedByCall nnn).toNat ≤ 0x1000 := by
  unfold State.pushedByCall
  split
  · exact (toNat_addrWord_le nnn).trans (by decide)
  · exact hpc

namespace RuleEffect

variable {s t : State} {i : Instr}

/-! ### The cells each rule may write -/

/-- A flag of its own is kept, or written as a bit by one of six instructions (R16). -/
theorem flag_of_separate (h : RuleEffect s i t) (ha : s.cfg.flagAlias = .separate) :
    t.flag = s.flag ∨ t.flagIsBit ∧ (writesFlagAndV i ∨ ∃ x y n, i = .drwVxVyNibble x y n) := by
  cases h with
  | draw x y n px b => exact .inr ⟨State.flagIsBit_setFlag _ b, .inr ⟨x, y, n, rfl⟩⟩
  | setFlagThenV i x b v hi => exact .inr ⟨State.flagIsBit_setFlagThenV ha x b v, .inl hi⟩
  | setVs => exact .inl (State.flag_setVs_of_separate ha)
  | _ => simp [State.isFlagCell, ha]

/-- The stack is kept, or CALL writes the slot its new `sp` names (R21, R67). -/
theorem stack (h : RuleEffect s i t) :
    t.stack = s.stack ∨
    ∃ nnn, i = .callAddr nnn ∧ t.sp ≠ 0 ∧ t.stack = s.stack.set t.sp.val (s.pushedByCall nnn) := by
  cases h with
  | call nnn hsp => exact .inr ⟨nnn, rfl, sp_add_one_ne_zero hsp, rfl⟩
  | _ => simp

/-- A slot that changes is the one CALL's new `sp` names, which is not 0 (R21). -/
theorem of_slot_ne (h : RuleEffect s i t) {k : Fin 16} (hk : t.stack[k.val] ≠ s.stack[k.val]) :
    (∃ nnn, i = .callAddr nnn) ∧ k = t.sp ∧ k ≠ 0 := by
  obtain hs | ⟨nnn, hi, hsp, hs⟩ := h.stack
  · exact absurd (by rw [hs]) hk
  · have hkt : k = t.sp := by
      by_contra hne
      exact hk (by simp [hs, Fin.val_ne_of_ne (Ne.symm hne)])
    exact ⟨⟨nnn, hi⟩, hkt, hkt ▸ hsp⟩

theorem of_sp_ne (h : RuleEffect s i t) (hne : t.sp ≠ s.sp) : i = .ret ∨ ∃ nnn, i = .callAddr nnn := by
  cases h with
  | ret => exact .inl rfl
  | call nnn => exact .inr ⟨nnn, rfl⟩
  | _ => simp at hne

theorem of_pix_ne (h : RuleEffect s i t) (hne : t.pix ≠ s.pix) : i = .cls ∨ ∃ x y n, i = .drwVxVyNibble x y n := by
  cases h with
  | clear => exact .inl rfl
  | draw x y n => exact .inr ⟨x, y, n, rfl⟩
  | _ => simp at hne

theorem of_readByte_ne (h : RuleEffect s i t) {a : Nat} (hne : t.readByte a ≠ s.readByte a) : writesMemory i := by
  cases h with
  | store _ _ _ hi => exact hi
  | _ => simp [State.readByte] at hne

theorem of_index_ne (h : RuleEffect s i t) (hne : t.index ≠ s.index) : writesIndex i := by
  cases h with
  | setIndex _ _ hi => exact hi
  | _ => simp at hne

theorem of_delay_ne (h : RuleEffect s i t) (hne : t.dt ≠ s.dt ∨ t.tdt ≠ s.tdt) : ∃ x, i = .ldDTVx x := by
  cases h with
  | writeDelay x => exact ⟨x, rfl⟩
  | _ => simp at hne

theorem of_sound_ne (h : RuleEffect s i t) (hne : t.st ≠ s.st ∨ t.tst ≠ s.tst) : ∃ x, i = .ldSTVx x := by
  cases h with
  | writeSound x => exact ⟨x, rfl⟩
  | _ => simp at hne

theorem eq_halt_of_halted (h : RuleEffect s i t) (hrun : s.status = .running) (ht : t.status = .halted) :
    i = .halt := by
  cases h with
  | halt => rfl
  | _ => simp [hrun] at ht

/-! ### Bounds -/

/-- Inside a rule `pc` is at most 0x1000; a rule skips, jumps to a computed address or returns to a slot (R20, R72). -/
theorem pc_le (h : RuleEffect s i t) (hpc : s.pc.toNat ≤ 0x1000)
    (hslots : ∀ k : Fin 16, s.stack[k.val].toNat ≤ 0x1000) : t.pc.toNat ≤ 0x10FE := by
  have hskip : ∀ b : Bool, (if b then s.pc + 2 else s.pc).toNat ≤ 0x10FE := by
    intro b
    split <;> bv_omega
  cases h with
  | jump _ _ hp => exact hp
  | call nnn => exact (toNat_addrWord_le nnn).trans (by decide)
  | ret _ k => exact (hslots k).trans (by decide)
  | skip _ b => simpa using hskip b
  | skipOnKey _ b => simpa using hskip b
  | _ => simpa using hpc.trans (by decide)

/-- CALL pushes an address or the `pc` a rule sees, at most 0x1000 (R67). -/
theorem slot_le (h : RuleEffect s i t) (hpc : s.pc.toNat ≤ 0x1000)
    (hslots : ∀ k : Fin 16, s.stack[k.val].toNat ≤ 0x1000) (k : Fin 16) : t.stack[k.val].toNat ≤ 0x1000 := by
  obtain hs | ⟨nnn, _, _, hs⟩ := h.stack
  · simpa only [hs] using hslots k
  · simp only [hs, Vector.getElem_set]
    split
    · exact State.pushedByCall_le hpc nnn
    · exact hslots k

end RuleEffect

/-! ### The obligations -/

/-- Settles O19: every rule keeps the flag or writes it as a bit (`RuleEffect.flag_of_separate`). -/
theorem stepKeepsFlagABit : Obligations.StepKeepsFlagABit := by
  intro s t ha hf h
  refine step_keeps h hf (advance := fun _ => hf) (raise := fun _ _ _ _ _ _ hu => hu) (rule := ?_)
    (redraw := fun _ hu => hu)
  intro i u _ _ he
  obtain hsame | ⟨hbit, _⟩ := he.flag_of_separate (by simpa using ha)
  · simpa [State.flagIsBit, hsame] using hf
  · exact hbit

/-- Settles O20: a fetch succeeds only at a `pc` up to 0xFFE, so a rule starts from a `pc` of at most 0x1000. -/
theorem stepKeepsPcBounded : Obligations.StepKeepsPcBounded := by
  intro s t hb h
  obtain ⟨hpc0, hslots⟩ := hb
  have hadv : s.pc.toNat ≤ 0xFFE → s.advance.pc.toNat ≤ 0x1000 := by
    intro hpc
    rw [State.pc_advance]
    bv_omega
  exact step_keeps h ⟨hpc0, hslots⟩ (advance := fun hpc => ⟨(hadv hpc).trans (by decide), hslots⟩)
    (raise := fun _ _ _ _ _ _ hu => hu)
    (rule := fun _ _ _ hpc he => ⟨he.pc_le (hadv hpc) hslots, he.slot_le (hadv hpc) hslots⟩)
    (redraw := fun _ hu => hu)

/-- Settles O21: a slot that a rule changes is the one CALL's new `sp` names (`RuleEffect.of_slot_ne`), never slot 0. -/
theorem onlyCallWritesTheStack : Obligations.OnlyCallWritesTheStack := by
  constructor
  · intro s t h
    refine step_keeps (P := fun u => u.stack[0] = s.stack[0]) h rfl (advance := fun _ => rfl)
      (raise := fun _ _ _ _ _ _ hu => hu) (rule := ?_) (redraw := fun _ hu => hu)
    intro i u _ _ he
    by_contra hne
    obtain ⟨_, _, h0⟩ := he.of_slot_ne (k := 0) hne
    exact h0 rfl
  · intro i s t k h hk
    exact (exec_ruleEffect h).of_slot_ne hk

/-- Settles O24, cell by cell from what a rule can do. -/
theorem onlyNamedInstructionsWrite : Obligations.OnlyNamedInstructionsWrite := by
  intro i s t h
  have he := exec_ruleEffect h
  refine ⟨he.of_sp_ne, ?_, ?_, he.of_index_ne, he.of_delay_ne, he.of_sound_ne, he.eq_halt_of_halted⟩
  · rintro ⟨p, hp⟩
    exact he.of_pix_ne fun e => hp (by rw [e])
  · rintro ⟨a, ha⟩
    exact he.of_readByte_ne ha

/-- Settles O25: a flag of its own changes only where a rule writes it as a flag (`RuleEffect.flag_of_separate`). -/
theorem onlyFlagInstructionsWriteTheFlag : Obligations.OnlyFlagInstructionsWriteTheFlag := by
  intro i s t ha h hne
  obtain hsame | ⟨_, ⟨x, y, hi⟩ | ⟨x, y, n, hi⟩⟩ := (exec_ruleEffect h).flag_of_separate ha
  · exact absurd hsame hne
  · exact ⟨x, y, by tauto⟩
  · exact ⟨x, y, by simp [hi]⟩

/-- Settles O26: where register 15 and the flag are one cell, reads and writes of either go to it; elsewhere register
`i` is `Vcell[i]` (R17). -/
theorem registersAndFlagAlias : Obligations.RegistersAndFlagAlias := by
  intro s x y v
  refine ⟨by simp [State.getV_setV], fun hne => by simp [State.getV_setV, hne], ?_, ?_⟩
  · intro ha
    have h15 : s.isFlagCell 15 = true := State.isFlagCell_iff.2 ⟨ha, rfl⟩
    rw [State.setV_of_isFlagCell h15]
    exact ⟨(State.flag_eq_getV h15).symm, rfl, rfl⟩
  · intro ha
    have hx : s.isFlagCell x = false := by simp [State.isFlagCell, ha]
    exact ⟨by simp [hx], by simp [State.getV, hx]⟩

end Sys2Proof.Machine
end

section
/-! SUPPORT. What reset leaves (70_reset_and_hazards.md R118 to R122). -/

namespace Sys2Proof.Machine

/-! ### The cells after reset -/

/-- A cell of a grid built row by row is its bit of its row (log 10). -/
theorem pixelAt_ofFn (f : Fin 32 → BitVec 64) {r c : Nat} (hr : r < 32) (hc : c < 64) :
    pixelAt (Vector.ofFn f) (r * 64 + c) = (f ⟨r, hr⟩).getLsbD c := by
  have hdiv : (r * 64 + c) / 64 = r := by omega
  have hmod : (r * 64 + c) % 64 = c := by omega
  simp [pixelAt, hdiv, hmod, hr]

theorem pixelAt_replicate_zero (p : Nat) : pixelAt (Vector.replicate 32 0) p = false := by
  simp [pixelAt]

section

variable (cfg : Config) (program : List Byte) (t0 : Nat)

/-- A program that fits leaves the core running with an empty record. -/
theorem State.status_resetWith_of_fits {program : List Byte} (h : program.length ≤ maxProgram) :
    (State.resetWith cfg program t0).status = .running ∧ (State.resetWith cfg program t0).fault = none := by
  simp [State.resetWith, h]

/-- Under `RESET_FILL = ZERO` every cell the source does not state is 0 (D5 to D8). -/
theorem State.resetWith_zero {cfg : Config} (h : cfg.resetFill = .zero) :
    State.resetWith cfg program t0 =
      { State.resetWith cfg program t0 with
        vcell := Vector.replicate 16 0, flag := 0, stack := Vector.replicate 16 0, dt := 0, st := 0,
        pix := Vector.replicate 32 0 } := by
  simp [State.resetWith, h]

/-- Under `RESET_FILL = DRAW` each of those cells holds its own free value (D40). -/
theorem State.resetWith_draw {cfg : Config} (h : cfg.resetFill = .draw) :
    State.resetWith cfg program t0 =
      { State.resetWith cfg program t0 with
        vcell := Vector.ofFn (fun k => Config.fillV k.val), flag := Config.fillFlag,
        stack := Vector.ofFn (fun k => Config.fillStack k.val), dt := Config.fillDT, st := Config.fillST,
        pix := Vector.ofFn (fun r => Config.fillRow r.val) } := by
  simp [State.resetWith, h]

/-- Reset's record is there exactly when the program did not fit (R106). -/
theorem State.recordWf_resetWith : (State.resetWith cfg program t0).recordWf := by
  by_cases h : program.length ≤ maxProgram <;> simp [State.recordWf, State.resetWith, h, faultRecord]

theorem State.inv_resetWith : (State.resetWith cfg program t0).Inv :=
  ⟨Memory.wf_afterLoad cfg program, State.recordWf_resetWith cfg program t0, le_rfl, le_rfl⟩

end

/-- Settles O14, the fixed cells by definition and the filled ones by the two fills. -/
theorem resetLeavesTheCells : Obligations.ResetLeavesTheCells := by
  intro cfg program t0 s
  refine ⟨rfl, rfl, rfl, rfl, rfl, rfl, rfl, State.status_resetWith_of_fits cfg t0, ?_, ?_⟩
  · intro hz
    have hs : s = _ := State.resetWith_zero program t0 hz
    rw [hs]
    refine ⟨?_, rfl, ?_, rfl, rfl, pixelAt_replicate_zero⟩
    · intro x
      simp [State.getV]
    · intro k
      simp
  · intro hd
    have hs : s = _ := State.resetWith_draw program t0 hd
    rw [hs]
    refine ⟨?_, ?_, rfl, ?_, rfl, rfl, fun r c hr hc => pixelAt_ofFn _ hr hc⟩
    · intro k
      simp
    · intro x
      simp [State.getV]
    · intro k
      simp

/-- Settles O17: the memory laws give the canonical form, and under ZERO the bounded cells are 0. -/
theorem resetMeetsTheInvariant : Obligations.ResetMeetsTheInvariant := by
  refine ⟨State.inv_resetWith, ?_, State.inv_resetWith _ _ _⟩
  intro cfg program t0 hz
  rw [State.resetWith_zero program t0 hz]
  refine ⟨⟨(by decide : (0x200 : Word).toNat ≤ 0x10FE), ?_⟩, .inl rfl⟩
  intro k
  simp

end Sys2Proof.Machine
end

section
/-! SUPPORT. The word at `pc`, the store that the next fetch sees, and the bytes reset leaves (20_memory.md R34, R36,
R44; 70_reset_and_hazards.md R118, R119). -/

namespace Sys2Proof

/-- The byte at the lower address is the high one (R36). -/
theorem toNat_wordOfBytes (hi lo : Byte) : (wordOfBytes hi lo).toNat = 256 * hi.toNat + lo.toNat := by
  rw [wordOfBytes, BitVec.toNat_append, ← Nat.shiftLeft_add_eq_or_of_lt lo.isLt, Nat.shiftLeft_eq, Nat.mul_comm]

end Sys2Proof

namespace Sys2Proof.Machine

/-! ### Fetch -/

/-- Settles O7: the fetch's word (`State.fetchWord_of_le`) as a number. -/
theorem fetchIsBigEndian : Obligations.FetchIsBigEndian := by
  intro s hpc
  exact ⟨_, State.fetchWord_of_le hpc, toNat_wordOfBytes _ _⟩

/-! ### Self-modifying code -/

/-- LD [I], Vx whose addresses all exist stores the registers, without a fault (R90). -/
theorem storeBytes_of_execLdMemVx {x : Nibble} {s t : State} (hb : s.index.toNat + x.toNat ≤ 0xFFF)
    (h : execLdMemVx x s = .next t) : s.storeBytes s.index.toNat (s.getVs x) = some t := by
  obtain ⟨hn, _⟩ | hst := execLdMemVx_cases h
  · have hlen := (State.storeBytes_eq_none.1 hn).2
    rw [State.length_getVs] at hlen
    simp only [memSize] at hlen
    omega
  · exact hst

/-- After LD [I], Vx the byte at `I + y` is `V[y]`, for each register up to `x` (R90). -/
theorem readByte_of_execLdMemVx {x y : Nibble} {s t : State} (hw : s.memWf = true)
    (hb : s.index.toNat + x.toNat ≤ 0xFFF) (h : execLdMemVx x s = .next t) (hy : y.toNat ≤ x.toNat) :
    t.readByte (s.index.toNat + y.toNat) = s.getV y := by
  have hin : s.index.toNat ≤ s.index.toNat + y.toNat ∧
      s.index.toNat + y.toNat < s.index.toNat + (s.getVs x).length := by
    rw [State.length_getVs]
    omega
  rw [State.readByte_storeBytes hw (storeBytes_of_execLdMemVx hb h), dif_pos hin]
  simp [State.getElem_getVs]

/-- Settles O53: the store leaves `pc`, and the two bytes there are the two registers (`readByte_of_execLdMemVx`). -/
theorem storeIsSeenByTheNextFetch : Obligations.StoreIsSeenByTheNextFetch := by
  intro x y z s t hw hb h hz hzx hpc
  have hex : execLdMemVx x s = .next t := h
  have hpct : t.pc = s.pc := by
    rw [(State.storeBytes_eq_some.1 (storeBytes_of_execLdMemVx hb hex)).2]
  have hnext : s.index.toNat + y.toNat + 1 = s.index.toNat + z.toNat := by omega
  rw [State.fetchWord_of_le (by rw [hpct]; omega), hpct, hpc, hnext,
    readByte_of_execLdMemVx hw hb hex (by omega), readByte_of_execLdMemVx hw hb hex hzx]

/-! ### Memory after reset -/

/-- An unlisted address of the glyph table reads as the table's byte (R34). -/
theorem Memory.background_glyph (cfg : Config) (j : Fin 80) :
    Memory.background cfg (glyphBase + j.val) = cfg.glyphTable[j.val] := by
  simp [Memory.background]

/-- An unlisted address outside the glyph table reads as 0 (log 9). -/
theorem Memory.background_of_not_glyph {cfg : Config} {a : Nat} (h : ¬ (glyphBase ≤ a ∧ a < glyphBase + 80)) :
    Memory.background cfg a = 0 := dif_neg h

/-- The draws below a bound reach every address there but the glyph table's (R129). -/
theorem Memory.read_drawn {bg : Nat → Byte} {a : Nat} : ∀ {n : Nat}, n ≤ memSize →
    Memory.read bg (Memory.drawn bg n) a =
      if a < n ∧ ¬ (glyphBase ≤ a ∧ a < glyphBase + 80) then Config.fillMem a else bg a
  | 0, _ => rfl
  | n + 1, hn => by
    have ih := Memory.read_drawn (bg := bg) (a := a) (n := n) (by omega)
    have hw : Memory.wf bg (Memory.drawn bg n) = true := Memory.wf_drawn (by omega)
    rw [Memory.drawn]
    split
    next hg =>
      rw [ih]
      exact if_congr (by omega) rfl rfl
    next hg =>
      rw [Memory.read_write hw, ih]
      by_cases ha : a = n
      · subst ha
        simp [hg]
      · rw [if_neg ha]
        exact if_congr (by omega) rfl rfl

/-- Filling leaves the glyph table as the background has it (R118). -/
theorem Memory.read_afterFill_glyph (cfg : Config) (j : Fin 80) :
    Memory.read (Memory.background cfg) (Memory.afterFill cfg) (glyphBase + j.val) = cfg.glyphTable[j.val] := by
  rw [← Memory.background_glyph, Memory.afterFill]
  split
  · rfl
  · rw [Memory.read_drawn le_rfl, if_neg (by omega)]

/-- Filling leaves 0 or the address's own draw outside the glyph table (R118, R129). -/
theorem Memory.read_afterFill_of_not_glyph {cfg : Config} {a : Nat} (ha : a < memSize)
    (hg : ¬ (glyphBase ≤ a ∧ a < glyphBase + 80)) :
    Memory.read (Memory.background cfg) (Memory.afterFill cfg) a =
      if cfg.resetFill = .zero then 0 else Config.fillMem a := by
  rw [Memory.afterFill]
  split
  next hz => rw [if_pos hz, Memory.read, Memory.background_of_not_glyph hg]
  next hd => rw [Memory.read_drawn le_rfl, if_pos ⟨ha, hg⟩, if_neg (by simp [hd])]

/-- Filling leaves a canonical memory: it is the memory reset leaves without a program. -/
theorem Memory.wf_afterFill (cfg : Config) : Memory.wf (Memory.background cfg) (Memory.afterFill cfg) = true :=
  Memory.wf_afterLoad cfg []

/-- Loading changes the bytes of a program that fits, and no other (R118, R119). -/
theorem Memory.read_afterLoad (cfg : Config) (program : List Byte) (a : Nat) :
    Memory.read (Memory.background cfg) (Memory.afterLoad cfg program) a =
      if h : program.length ≤ maxProgram ∧ programBase ≤ a ∧ a < programBase + program.length then
        program[a - programBase]
      else Memory.read (Memory.background cfg) (Memory.afterFill cfg) a := by
  rw [Memory.afterLoad]
  split
  next hfit =>
    have hlen : programBase + program.length ≤ memSize := by
      simp only [programBase, maxProgram, memSize] at *
      omega
    rw [Memory.read_writeList hlen (Memory.wf_afterFill cfg)]
    simp only [hfit, true_and]
  next hbig => rw [dif_neg (mt And.left hbig)]

/-- Settles O15, region by region: the program's bytes, the glyph table before them, and the fill elsewhere. -/
theorem resetLeavesMemory : Obligations.ResetLeavesMemory := by
  intro cfg program t0 s len
  have hread : ∀ a, s.readByte a = _ := Memory.read_afterLoad cfg program
  refine ⟨?_, ?_, ?_⟩
  · intro j
    rw [hread, dif_neg (by simp only [programBase]; omega)]
    exact Memory.read_afterFill_glyph cfg j
  · intro j hfit
    rw [hread, dif_pos ⟨hfit, by simp only [programBase]; omega⟩]
    simp
  · intro a ha hg hp
    have hout : ¬ (program.length ≤ maxProgram ∧ programBase ≤ a ∧ a < programBase + program.length) := by
      rintro ⟨hfit, hin⟩
      exact hp (by simpa [len, hfit] using hin)
    rw [hread, dif_neg hout]
    exact Memory.read_afterFill_of_not_glyph ha hg

end Sys2Proof.Machine
end

section
/-! SUPPORT. Decoding and encoding undo each other, and both follow the opcode table's rows by mask and match
(30_encoding.md R46 to R55). -/

namespace Sys2Proof

/-! ### Which instructions a configuration has -/

/-- The halt row is the only one a configuration can lack (R52). -/
theorem Instr.wellFormed_iff {cfg : Config} {i : Instr} :
    i.wellFormed cfg = true ↔ (i = .halt → cfg.haltOnZero = true) := by
  cases i <;> simp [Instr.wellFormed]

/-! ### The layouts as four nibbles (R49) -/

/-- An address field after the opcode nibble, nibble by nibble. -/
theorem append_addr (o a b c : Nibble) : (o ++ (a ++ b ++ c) : Word) = o ++ a ++ b ++ c := by
  rw [BitVec.append_assoc, BitVec.append_assoc, BitVec.append_assoc]
  rfl

/-- A byte after the first two nibbles, nibble by nibble. -/
theorem append_byte (o x a b : Nibble) : (o ++ x ++ (a ++ b) : Word) = o ++ x ++ a ++ b :=
  (BitVec.append_assoc (x₁ := o ++ x)).symm

/-- A word splits into four nibbles in one way only (R48). -/
theorem four_nibbles_inj {a b c d a' b' c' d' : Nibble} (h : (a ++ b ++ c ++ d : Word) = a' ++ b' ++ c' ++ d') :
    a = a' ∧ b = b' ∧ c = c' ∧ d = d' := by
  have hn := nibblesOf_four a b c d
  rw [h, nibblesOf_four] at hn
  simpa [eq_comm] using hn

theorem exists_nibbles_addr (nnn : Addr) : ∃ a b c : Nibble, nnn = a ++ b ++ c := ⟨_, _, _, (addr_split nnn).symm⟩

theorem exists_nibbles_byte (nn : Byte) : ∃ a b : Nibble, nn = a ++ b := ⟨_, _, (byte_split nn).symm⟩

/-! ### Decode after encode -/

/-- The decoder reads every instruction's word back, the halt word only where the halt row is there (R51, R52). -/
theorem decodeWord_encode {h : Bool} {i : Instr} (hh : i = .halt → h = true) : decodeWord h (encode i) = some i := by
  cases i with
  | halt => rw [hh rfl]; rfl
  | cls | ret => rfl
  | jpAddr nnn | callAddr nnn | ldIAddr nnn | jpV0Addr nnn =>
    obtain ⟨a, b, c, rfl⟩ := exists_nibbles_addr nnn
    rw [encode, append_addr]
    exact decodeWord_of_nibbles (nibblesOf_four _ a b c)
  | seVxByte x nn | sneVxByte x nn | ldVxByte x nn | addVxByte x nn | rndVxByte x nn =>
    obtain ⟨a, b, rfl⟩ := exists_nibbles_byte nn
    rw [encode, append_byte]
    exact decodeWord_of_nibbles (nibblesOf_four _ x a b)
  | skpVx x | sknpVx x | ldVxDT x | ldDTVx x | ldSTVx x | addIVx x | ldFVx x | ldBVx x | ldMemVx x | ldVxMem x =>
    exact decodeWord_of_nibbles (nibblesOf_xnn _ x _)
  | drwVxVyNibble x y n => exact decodeWord_of_nibbles (nibblesOf_four _ x y n)
  | seVxVy x y | sneVxVy x y | ldVxVy x y | orVxVy x y | andVxVy x y | xorVxVy x y | addVxVy x y | subVxVy x y
  | shrVxVy x y | subnVxVy x y | shlVxVy x y =>
    exact decodeWord_of_nibbles (nibblesOf_four _ x y _)

/-- Settles O2: the word's two bytes are the word, and the word decodes to the instruction (`decodeWord_encode`). -/
theorem decodeOfEncodeIsIdentity : Obligations.DecodeOfEncodeIsIdentity := by
  intro cfg i hwf
  rw [decode_bytes, decodeWord_encode (Instr.wellFormed_iff.1 hwf)]

/-! ### Encode after decode -/

/-- The instruction is what the word stands for: its own word, and the halt only where that row is there. -/
def Instr.Explains (i : Instr) (h : Bool) (w : Word) : Prop := encode i = w ∧ (i = .halt → h = true)

theorem explains_of_decodeRow0 {h : Bool} {n1 n2 n3 : Nibble} {i : Instr} (hd : decodeRow0 h n1 n2 n3 = some i) :
    i.Explains h (0x0#4 ++ n1 ++ n2 ++ n3) := by
  unfold decodeRow0 at hd
  split_ifs at hd
  all_goals
    cases hd
    simp_all [Instr.Explains, encode]

theorem explains_of_decodeRow8 {h : Bool} {x y n3 : Nibble} {i : Instr} (hd : decodeRow8 x y n3 = some i) :
    i.Explains h (0x8#4 ++ x ++ y ++ n3) := by
  unfold decodeRow8 at hd
  split_ifs at hd
  all_goals
    cases hd
    simp [Instr.Explains, encode, *]

theorem explains_of_decodeRowE {h : Bool} {x : Nibble} {low : Byte} {i : Instr} (hd : decodeRowE x low = some i) :
    i.Explains h (0xE#4 ++ x ++ low) := by
  unfold decodeRowE at hd
  split_ifs at hd
  all_goals
    cases hd
    simp [Instr.Explains, encode, *]

theorem explains_of_decodeRowF {h : Bool} {x : Nibble} {low : Byte} {i : Instr} (hd : decodeRowF x low = some i) :
    i.Explains h (0xF#4 ++ x ++ low) := by
  unfold decodeRowF at hd
  split_ifs at hd
  all_goals
    cases hd
    simp [Instr.Explains, encode, *]

/-- What the opcode map answers encodes back to the four nibbles, row by row of the top nibble (R51). -/
theorem explains_of_decodeNibbles {h : Bool} {n0 n1 n2 n3 : Nibble} {i : Instr}
    (hd : decodeNibbles h n0 n1 n2 n3 = some i) : i.Explains h (n0 ++ n1 ++ n2 ++ n3) := by
  obtain rfl | rfl | rfl | rfl | rfl | rfl | rfl | rfl | rfl | rfl | rfl | rfl | rfl | rfl | rfl | rfl :=
    nibble_cases n0
  · exact explains_of_decodeRow0 hd
  · cases hd; exact ⟨append_addr .., nofun⟩
  · cases hd; exact ⟨append_addr .., nofun⟩
  · cases hd; exact ⟨append_byte .., nofun⟩
  · cases hd; exact ⟨append_byte .., nofun⟩
  · rw [decodeNibbles_5] at hd
    split_ifs at hd with h3
    cases hd
    exact ⟨by rw [h3]; rfl, nofun⟩
  · cases hd; exact ⟨append_byte .., nofun⟩
  · cases hd; exact ⟨append_byte .., nofun⟩
  · exact explains_of_decodeRow8 hd
  · rw [decodeNibbles_9] at hd
    split_ifs at hd with h3
    cases hd
    exact ⟨by rw [h3]; rfl, nofun⟩
  · cases hd; exact ⟨append_addr .., nofun⟩
  · cases hd; exact ⟨append_addr .., nofun⟩
  · cases hd; exact ⟨append_byte .., nofun⟩
  · cases hd; exact ⟨rfl, nofun⟩
  · rw [← append_byte]; exact explains_of_decodeRowE hd
  · rw [← append_byte]; exact explains_of_decodeRowF hd

theorem explains_of_decodeWord {h : Bool} {w : Word} {i : Instr} (hd : decodeWord h w = some i) : i.Explains h w := by
  rw [decodeWord_of_nibbles (nibblesOf_bytes w)] at hd
  exact nibbles_append w ▸ explains_of_decodeNibbles hd

/-- Settles O3: by the rows of the opcode map (`explains_of_decodeNibbles`). -/
theorem encodeOfDecodeIsIdentity : Obligations.EncodeOfDecodeIsIdentity := by
  intro cfg w i hd
  obtain ⟨hw, hh⟩ := explains_of_decodeWord hd
  exact ⟨hw, Instr.wellFormed_iff.2 hh⟩

end Sys2Proof
end

section
/-! SUPPORT. The rows of the opcode table as mask and match (30_encoding.md R52), the words of no row, and how many
words are legal. -/

namespace Sys2Proof

/-! ### Mask and match -/

/-- An instruction's word matches its own row (R52, R53). -/
theorem encode_and_rowMask (i : Instr) : encode i &&& rowMask i = rowMatch i := by
  cases i with
  | halt | cls | ret => decide
  | jpAddr | callAddr | ldIAddr | jpV0Addr => exact Laws.FixedBits.addr_mask _ _
  | seVxByte | sneVxByte | ldVxByte | addVxByte | rndVxByte => exact Laws.FixedBits.xnn_mask _ _ _
  | drwVxVyNibble => exact Laws.FixedBits.xyn_mask _ _ _ _
  | seVxVy | sneVxVy | ldVxVy | orVxVy | andVxVy | xorVxVy | addVxVy | subVxVy | shrVxVy | subnVxVy | shlVxVy =>
    exact Laws.FixedBits.xys_mask _ _ _ _
  | skpVx | sknpVx | ldVxDT | ldDTVx | ldSTVx | addIVx | ldFVx | ldBVx | ldMemVx | ldVxMem =>
    exact Laws.FixedBits.xff_mask _ _ _

/-- A word that matches a row has the row's value in every field that the mask fixes. -/
theorem extract_of_matches {w mask value : Word} (start len : Nat)
    (hmask : mask.extractLsb' start len = BitVec.allOnes len) (hw : w &&& mask = value) :
    w.extractLsb' start len = value.extractLsb' start len := by
  rw [← hw, BitVec.extractLsb'_and, hmask, BitVec.and_allOnes]

/-- A word that matches a row of the configuration decodes to an instruction of that row (R52). -/
theorem decodes_of_matches {h : Bool} {w : Word} {i : Instr} (hh : i = .halt → h = true)
    (hw : w &&& rowMask i = rowMatch i) :
    ∃ k, decodeWord h w = some k ∧ rowMask k = rowMask i ∧ rowMatch k = rowMatch i := by
  rw [decodeWord_of_nibbles (nibblesOf_bytes w)]
  cases i with
  | halt =>
    simp only [rowMask, rowMatch] at hw
    rw [extract_of_matches 12 4 rfl hw, extract_of_matches 8 4 rfl hw, extract_of_matches 4 4 rfl hw,
      extract_of_matches 0 4 rfl hw, hh rfl]
    exact ⟨_, rfl, rfl, rfl⟩
  | cls | ret =>
    simp only [rowMask, rowMatch] at hw
    rw [extract_of_matches 12 4 rfl hw, extract_of_matches 8 4 rfl hw, extract_of_matches 4 4 rfl hw,
      extract_of_matches 0 4 rfl hw]
    exact ⟨_, rfl, rfl, rfl⟩
  | jpAddr | callAddr | ldIAddr | jpV0Addr | seVxByte | sneVxByte | ldVxByte | addVxByte | rndVxByte
  | drwVxVyNibble =>
    simp only [rowMask, rowMatch] at hw
    rw [extract_of_matches 12 4 rfl hw]
    exact ⟨_, rfl, rfl, rfl⟩
  | seVxVy | sneVxVy | ldVxVy | orVxVy | andVxVy | xorVxVy | addVxVy | subVxVy | shrVxVy | subnVxVy | shlVxVy =>
    simp only [rowMask, rowMatch] at hw
    rw [extract_of_matches 12 4 rfl hw, extract_of_matches 0 4 rfl hw]
    exact ⟨_, rfl, rfl, rfl⟩
  | skpVx | sknpVx | ldVxDT | ldDTVx | ldSTVx | addIVx | ldFVx | ldBVx | ldMemVx | ldVxMem =>
    simp only [rowMask, rowMatch] at hw
    rw [extract_of_matches 12 4 rfl hw, extract_of_matches 4 4 rfl hw, extract_of_matches 0 4 rfl hw]
    exact ⟨_, rfl, rfl, rfl⟩

/-- A decoded word matches the row of its instruction (R52). -/
theorem matches_of_decodes {h : Bool} {w : Word} {i : Instr} (hd : decodeWord h w = some i) :
    w &&& rowMask i = rowMatch i := by
  obtain ⟨rfl, _⟩ := explains_of_decodeWord hd
  exact encode_and_rowMask i

/-- Settles O4: the decoder answers one instruction, and the row of that one is the row of every match
(`decodes_of_matches`). -/
theorem opcodeRowsAreDisjoint : Obligations.OpcodeRowsAreDisjoint := by
  intro cfg w
  refine ⟨?_, fun i hd => matches_of_decodes hd, ?_⟩
  · intro i j hi hj
    obtain ⟨k, hk, hmask, hmatch⟩ := decodes_of_matches (h := true) (fun _ => rfl) hi
    obtain ⟨k', hk', hmask', hmatch'⟩ := decodes_of_matches (h := true) (fun _ => rfl) hj
    obtain rfl : k = k' := Option.some.inj (hk.symm.trans hk')
    exact ⟨hmask.symm.trans hmask', hmatch.symm.trans hmatch'⟩
  · constructor
    · intro hn i hwf hw
      obtain ⟨k, hk, _⟩ := decodes_of_matches (Instr.wellFormed_iff.1 hwf) hw
      exact absurd (hn.symm.trans hk) nofun
    · intro hno
      by_contra hs
      obtain ⟨i, hd⟩ := Option.ne_none_iff_exists'.1 hs
      obtain ⟨_, hh⟩ := explains_of_decodeWord hd
      exact hno i (Instr.wellFormed_iff.2 hh) (matches_of_decodes hd)

/-! ### Which words decode, by the top nibble (R51, R55) -/

/-- The address fields of the words that decode with top nibble 0. -/
def legalRow0 (h : Bool) : List Addr := if h then [0x000, 0x0E0, 0x0EE] else [0x0E0, 0x0EE]

/-- The last nibbles of the words that decode with top nibble 8. -/
def legalRow8 : List Nibble := [0x0, 0x1, 0x2, 0x3, 0x4, 0x5, 0x6, 0x7, 0xE]

/-- The low bytes of the words that decode with top nibble E. -/
def legalRowE : List Byte := [0x9E, 0xA1]

/-- The low bytes of the words that decode with top nibble F. -/
def legalRowF : List Byte := [0x07, 0x15, 0x18, 0x1E, 0x29, 0x33, 0x55, 0x65]

theorem addr_nibbles_inj {a b c a' b' c' : Nibble} :
    (a ++ b ++ c : Addr) = a' ++ b' ++ c' ↔ a = a' ∧ b = b' ∧ c = c' := by
  constructor
  · intro he
    have h4 : (0x0#4 ++ a ++ b ++ c : Word) = 0x0#4 ++ a' ++ b' ++ c' := by rw [← append_addr, he, append_addr]
    exact (four_nibbles_inj h4).2
  · rintro ⟨rfl, rfl, rfl⟩
    rfl

theorem isSome_decodeRow0 (h : Bool) (a b c : Nibble) :
    (decodeRow0 h a b c).isSome = decide (a ++ b ++ c ∈ legalRow0 h) := by
  have h000 : (a ++ b ++ c : Addr) = 0x000#12 ↔ a = 0x0#4 ∧ b = 0x0#4 ∧ c = 0x0#4 :=
    addr_nibbles_inj (a' := 0x0) (b' := 0x0) (c' := 0x0)
  have h0E0 : (a ++ b ++ c : Addr) = 0x0E0#12 ↔ a = 0x0#4 ∧ b = 0xE#4 ∧ c = 0x0#4 :=
    addr_nibbles_inj (a' := 0x0) (b' := 0xE) (c' := 0x0)
  have h0EE : (a ++ b ++ c : Addr) = 0x0EE#12 ↔ a = 0x0#4 ∧ b = 0xE#4 ∧ c = 0xE#4 :=
    addr_nibbles_inj (a' := 0x0) (b' := 0xE) (c' := 0xE)
  unfold decodeRow0
  split_ifs <;> cases h <;> simp_all [legalRow0]

theorem isSome_decodeRow8 (x y n : Nibble) :
    (decodeRow8 x y n).isSome = decide (n ∈ legalRow8) := by
  unfold decodeRow8
  split_ifs <;> simp_all [legalRow8]

theorem isSome_decodeRowE (x : Nibble) (low : Byte) :
    (decodeRowE x low).isSome = decide (low ∈ legalRowE) := by
  unfold decodeRowE
  split_ifs <;> simp_all [legalRowE]

theorem isSome_decodeRowF (x : Nibble) (low : Byte) :
    (decodeRowF x low).isSome = decide (low ∈ legalRowF) := by
  unfold decodeRowF
  split_ifs <;> simp_all [legalRowF]

/-! ### Counting bit vectors -/

/-- How many bit vectors of a width pass a test. -/
def countWords {n : Nat} (p : BitVec n → Bool) : Nat := (List.range (2 ^ n)).countP fun k => p (BitVec.ofNat n k)

theorem countP_range_mul (p : Nat → Bool) (n : Nat) : ∀ m,
    (List.range (m * n)).countP p = ((List.range m).map fun a => (List.range n).countP fun b => p (a * n + b)).sum
  | 0 => by simp
  | m + 1 => by
    rw [Nat.add_one_mul, List.range_add, List.countP_append, countP_range_mul p n m, List.countP_map,
      List.range_succ, List.map_append, List.sum_append]
    simp [Function.comp_def]

theorem ofNat_mul_add {m n a b : Nat} (hb : b < 2 ^ n) :
    BitVec.ofNat (m + n) (a * 2 ^ n + b) = BitVec.ofNat m a ++ BitVec.ofNat n b := by
  apply BitVec.eq_of_toNat_eq
  have hdiv : (a * 2 ^ n + b) / 2 ^ n = a := by
    rw [Nat.mul_comm, Nat.mul_add_div (Nat.two_pow_pos n), Nat.div_eq_of_lt hb, Nat.add_zero]
  rw [BitVec.toNat_append, ← Nat.shiftLeft_add_eq_or_of_lt (BitVec.isLt _), Nat.shiftLeft_eq]
  simp only [BitVec.toNat_ofNat]
  rw [Nat.pow_add, Nat.mul_comm (2 ^ m), Nat.mod_mul, hdiv, Nat.mul_add_mod_self_right, Nat.add_comm, Nat.mul_comm]

/-- A count splits over the upper bits. -/
theorem countWords_append {m n : Nat} (p : BitVec (m + n) → Bool) :
    countWords p =
      ((List.range (2 ^ m)).map fun a => countWords fun b : BitVec n => p (BitVec.ofNat m a ++ b)).sum := by
  unfold countWords
  rw [Nat.pow_add, countP_range_mul]
  congr 1
  refine List.map_congr_left fun a _ => List.countP_congr fun b hb => ?_
  rw [ofNat_mul_add (List.mem_range.1 hb)]

/-- A test of the lower bits alone is passed as often for each value of the upper bits. -/
theorem countWords_of_low {m n : Nat} {p : BitVec (m + n) → Bool} {q : BitVec n → Bool}
    (h : ∀ (a : BitVec m) b, p (a ++ b) = q b) : countWords p = 2 ^ m * countWords q := by
  simp [countWords_append, h]

theorem countWords_true (n : Nat) : countWords (fun _ : BitVec n => true) = 2 ^ n := by
  simp [countWords]

/-- As many bit vectors are in a list without repetition as the list is long. -/
theorem countWords_mem {n : Nat} {l : List (BitVec n)} (hl : l.Nodup) :
    countWords (fun b => decide (b ∈ l)) = l.length := by
  have hall : ((List.range (2 ^ n)).map (BitVec.ofNat n)).Nodup := by
    refine List.nodup_range.map_on fun a ha b hb he => ?_
    simpa [Nat.mod_eq_of_lt (List.mem_range.1 ha), Nat.mod_eq_of_lt (List.mem_range.1 hb)] using
      congrArg BitVec.toNat he
  have hmem : ∀ b : BitVec n, b ∈ (List.range (2 ^ n)).map (BitVec.ofNat n) := fun b =>
    List.mem_map.2 ⟨b.toNat, List.mem_range.2 b.isLt, BitVec.ofNat_toNat n b ▸ BitVec.setWidth_eq b⟩
  calc countWords (fun b => decide (b ∈ l))
      = (((List.range (2 ^ n)).map (BitVec.ofNat n)).filter fun b => decide (b ∈ l)).length := by
        rw [← List.countP_eq_length_filter, List.countP_map]; rfl
    _ = l.length := ((List.perm_ext_iff_of_nodup (hall.filter _) hl).2 fun b => by simp [hmem]).length_eq

/-! ### The legal words, counted by the top nibble -/

/-- How many words with a top nibble decode. -/
def countRow (h : Bool) (o : Nibble) : Nat := countWords fun nnn : Addr => (decodeWord h (o ++ nnn)).isSome

theorem countWords_decodeWord (h : Bool) :
    countWords (fun w : Word => (decodeWord h w).isSome) =
      ((List.range 16).map fun o => countRow h (BitVec.ofNat 4 o)).sum :=
  countWords_append (m := 4) (n := 12) _

/-- A row in which every word decodes. -/
theorem countRow_of_all {h : Bool} {o : Nibble} (hd : ∀ a b c, (decodeNibbles h o a b c).isSome = true) :
    countRow h o = 4096 := by
  have hall : ∀ nnn : Addr, (decodeWord h (o ++ nnn)).isSome = true := fun nnn => by
    rw [decodeWord_of_nibbles (nibblesOf_addr o nnn), hd]
  simp only [countRow, hall]
  exact countWords_true 12

/-- A row whose legal words are those with an address field of a list. -/
theorem countRow_of_addr {h : Bool} {o : Nibble} {l : List Addr} (hl : l.Nodup)
    (hd : ∀ a b c, (decodeNibbles h o a b c).isSome = decide (a ++ b ++ c ∈ l)) : countRow h o = l.length := by
  have hmem : ∀ nnn : Addr, (decodeWord h (o ++ nnn)).isSome = decide (nnn ∈ l) := fun nnn => by
    rw [decodeWord_of_nibbles (nibblesOf_addr o nnn), hd, addr_split]
  simp only [countRow, hmem]
  exact countWords_mem hl

/-- A row whose legal words are those with a low byte of a list. -/
theorem countRow_of_byte {h : Bool} {o : Nibble} {l : List Byte} (hl : l.Nodup)
    (hd : ∀ x a b, (decodeNibbles h o x a b).isSome = decide (a ++ b ∈ l)) : countRow h o = 16 * l.length := by
  have hmem : ∀ (x : Nibble) (low : Byte), (decodeWord h (o ++ (x ++ low))).isSome = decide (low ∈ l) := by
    intro x low
    obtain ⟨a, b, rfl⟩ := exists_nibbles_byte low
    have hassoc : (x ++ (a ++ b) : Addr) = x ++ a ++ b := BitVec.append_assoc.symm
    rw [hassoc, append_addr, decodeWord_of_nibbles (nibblesOf_four o x a b), hd]
  rw [← countWords_mem hl]
  exact countWords_of_low (m := 4) (n := 8) hmem

/-- A row whose legal words are those with a last nibble of a list. -/
theorem countRow_of_nibble {h : Bool} {o : Nibble} {l : List Nibble} (hl : l.Nodup)
    (hd : ∀ x y n, (decodeNibbles h o x y n).isSome = decide (n ∈ l)) : countRow h o = 256 * l.length := by
  have hmem : ∀ (xy : Byte) (n : Nibble), (decodeWord h (o ++ (xy ++ n))).isSome = decide (n ∈ l) := by
    intro xy n
    obtain ⟨x, y, rfl⟩ := exists_nibbles_byte xy
    rw [append_addr, decodeWord_of_nibbles (nibblesOf_four o x y n), hd]
  rw [← countWords_mem hl]
  exact countWords_of_low (m := 8) (n := 4) hmem

theorem countRow_0 (h : Bool) : countRow h 0x0 = (legalRow0 h).length :=
  countRow_of_addr (by cases h <;> decide) (isSome_decodeRow0 h)

theorem countRow_5 (h : Bool) : countRow h 0x5 = 256 :=
  countRow_of_nibble (l := [0x0]) (by decide) fun x y n => by
    rw [decodeNibbles_5]
    split_ifs <;> simp_all

theorem countRow_8 (h : Bool) : countRow h 0x8 = 256 * legalRow8.length :=
  countRow_of_nibble (by decide) isSome_decodeRow8

theorem countRow_9 (h : Bool) : countRow h 0x9 = 256 :=
  countRow_of_nibble (l := [0x0]) (by decide) fun x y n => by
    rw [decodeNibbles_9]
    split_ifs <;> simp_all

theorem countRow_E (h : Bool) : countRow h 0xE = 16 * legalRowE.length :=
  countRow_of_byte (by decide) fun x a b => isSome_decodeRowE x (a ++ b)

theorem countRow_F (h : Bool) : countRow h 0xF = 16 * legalRowF.length :=
  countRow_of_byte (by decide) fun x a b => isSome_decodeRowF x (a ++ b)

/-- Ten top nibbles have only legal words; the other six are counted one by one. -/
theorem countWords_legal (h : Bool) :
    countWords (fun w : Word => (decodeWord h w).isSome) = (legalRow0 h).length + 43936 := by
  have hall : ∀ o ∈ ([0x1, 0x2, 0x3, 0x4, 0x6, 0x7, 0xA, 0xB, 0xC, 0xD] : List Nibble), countRow h o = 4096 := by
    intro o ho
    refine countRow_of_all fun a b c => ?_
    fin_cases ho <;> rfl
  rw [countWords_decodeWord]
  change ([countRow h 0x0, countRow h 0x1, countRow h 0x2, countRow h 0x3, countRow h 0x4, countRow h 0x5,
    countRow h 0x6, countRow h 0x7, countRow h 0x8, countRow h 0x9, countRow h 0xA, countRow h 0xB,
    countRow h 0xC, countRow h 0xD, countRow h 0xE, countRow h 0xF]).sum = _
  rw [countRow_0, countRow_5, countRow_8, countRow_9, countRow_E, countRow_F, hall 0x1 (by decide),
    hall 0x2 (by decide), hall 0x3 (by decide), hall 0x4 (by decide), hall 0x6 (by decide), hall 0x7 (by decide),
    hall 0xA (by decide), hall 0xB (by decide), hall 0xC (by decide), hall 0xD (by decide)]
  simp [legalRow8, legalRowE, legalRowF]

/-- Settles O5: the rows' counts add up to 43936 and the words with top nibble 0. -/
theorem legalWordCount : Obligations.LegalWordCount :=
  ⟨countWords_legal true, countWords_legal false⟩

end Sys2Proof
end

section
/-! SUPPORT. The dispatch cycle (30_encoding.md R55 to R61): what one step of a running core is, by what its fetch
and its decoder answer, and the redraw event at its end. -/

namespace Sys2Proof

/-! ### The nibbles of two bytes (R48) -/

theorem toNat_highNibble (b : Byte) : (b.extractLsb' 4 4).toNat = b.toNat / 16 := by
  have := b.isLt
  rw [BitVec.extractLsb'_toNat, Nat.shiftRight_eq_div_pow]
  omega

theorem toNat_lowNibble (b : Byte) : (b.extractLsb' 0 4).toNat = b.toNat % 16 := by
  rw [BitVec.extractLsb'_toNat, Nat.shiftRight_zero]

/-- Settles O6: each half of a byte as a number. -/
theorem nibblesOfTwoBytes : Obligations.NibblesOfTwoBytes := by
  refine ⟨?_, by decide⟩
  intro hi lo n0 n1 n2 n3 h
  obtain ⟨rfl, rfl, rfl, rfl⟩ : _ = n0 ∧ _ = n1 ∧ _ = n2 ∧ _ = n3 := by simpa [nibblesOf] using h
  exact ⟨toNat_highNibble hi, toNat_lowNibble hi, toNat_highNibble lo, toNat_lowNibble lo⟩

/-- Settles O1, by evaluating the decoder on each word. -/
theorem decodesWordsOfTheMap : Obligations.DecodesWordsOfTheMap := by
  unfold Obligations.DecodesWordsOfTheMap
  decide

/-! ### Words of no row (R55) -/

/-- A word with top nibble 0 is unknown when its address field is none of the legal ones. -/
theorem decodeWord_eq_none_of_row0 {h : Bool} {nnn : Addr} (hn : nnn ∉ legalRow0 h) :
    decodeWord h (0x0#4 ++ nnn) = none := by
  have hs := isSome_decodeRow0 h (nnn.extractLsb' 8 4) (nnn.extractLsb' 4 4) (nnn.extractLsb' 0 4)
  rw [addr_split, decide_eq_false hn] at hs
  rw [decodeWord_of_nibbles (nibblesOf_addr _ nnn)]
  exact Option.isNone_iff_eq_none.1 (Option.isSome_eq_false_iff.1 hs)

end Sys2Proof

namespace Sys2Proof.Machine

/-! ### One step of a running core (R57 to R61) -/

section

variable {s : State} (hrun : s.status = .running)

include hrun

theorem step_of_fetch_fault (hf : s.fetchWord = none) : step s = .next s.raiseFetch := by
  simp [step, hrun, hf]

theorem step_of_unknown {w : Word} (hf : s.fetchWord = some w) (hd : decodeWord s.cfg.haltOnZero w = none) :
    step s = .next (s.advance.raiseUnknown w) := by
  simp [step, hrun, hf, hd]

theorem step_of_decoded {w : Word} {i : Instr} (hf : s.fetchWord = some w)
    (hd : decodeWord s.cfg.haltOnZero w = some i) : step s = finishStep (exec i s.advance) := by
  simp [step, hrun, hf, hd]

end

/-- Settles O8: a decoded word's step is `finishStep` of its rule, which adds the redraw event. -/
theorem stepRunsTheDecodedInstruction : Obligations.StepRunsTheDecodedInstruction := by
  intro s w i hrun hf hd
  have hstep := step_of_decoded hrun hf hd
  refine ⟨hstep, rfl, fun u hu => ?_⟩
  rw [hstep]
  exact finishStep_eq_next.2 ⟨u, hu, rfl⟩

/-- Settles O9: the fetch fails past 0xFFE and reads two bytes up to there; what follows is read off the step. -/
theorem fetchAndAdvance : Obligations.FetchAndAdvance := by
  intro s hrun
  constructor
  · intro hpc
    exact step_of_fetch_fault hrun (State.fetchWord_of_gt hpc)
  · intro hpc
    have hf := State.fetchWord_of_le hpc
    refine ⟨_, hf, rfl, fun i hd => step_of_decoded hrun hf hd, fun hd t ht => ?_⟩
    rw [step_of_unknown hrun hf hd] at ht
    cases ht
    simp

/-- Settles O10: the raise after the advance records the `pc` before it, and the named words are of no row. -/
theorem unknownWordFaults : Obligations.UnknownWordFaults := by
  refine ⟨?_, ?_, rfl⟩
  · intro s w hrun hf hd
    rw [step_of_unknown hrun hf hd, State.raiseUnknown, State.instrAddr_advance]
    rfl
  · intro h
    refine ⟨rfl, rfl, fun x y => decodeWord_of_nibbles (nibblesOf_four _ x y _),
      fun x y => decodeWord_of_nibbles (nibblesOf_four _ x y _), fun nnn hcls hret hhalt => ?_⟩
    apply decodeWord_eq_none_of_row0
    cases h <;> simp_all [legalRow0]

/-! ### The redraw event (R61) -/

@[simp] theorem State.redraws_setVs (s : State) (j : Nat) (bs : List Byte) : (s.setVs j bs).redraws = s.redraws := by
  obtain ⟨_, _, h⟩ := s.setVs_rest bs j
  rw [h]

/-- No rule emits the event itself: it is the dispatcher's (R61). -/
theorem RuleEffect.redraws {s t : State} {i : Instr} (h : RuleEffect s i t) : t.redraws = s.redraws := by
  cases h <;> simp

/-- Settles O12: the fetch fault, the unknown word and the rules leave the count alone, so it grows exactly where
`finishStep` finds the core still running. -/
theorem oneRedrawPerCompletedStep : Obligations.OneRedrawPerCompletedStep := by
  intro s t hrun h
  obtain ⟨hstop, _⟩ | ⟨_, _, rfl⟩ | ⟨_, _, w, _, _, rfl⟩ | ⟨_, _, w, i, u, _, _, hu, rfl⟩ := step_cases h
  · exact absurd hrun hstop
  · simp
  · simp
  · have hcount : u.redraws = s.redraws := (exec_ruleEffect hu).redraws
    split
    next hgoes => simp [hgoes, hcount]
    next hends => simp [hends, hcount]

end Sys2Proof.Machine
end

section
/-! SUPPORT. The display family (40_display.md R62, R63): the state a sprite's drawing leaves, cell by cell, and where
DRW answers it. -/

namespace Sys2Proof.Machine

/-- A change of pixels touches no other part of the state. -/
theorem State.sameBut_pix {s : State} {px : Pixels} {P : Part → Prop}
    (h : ∀ p, ¬ P (.pixel p) → pixelAt px p = pixelAt s.pix p) : s.sameBut { s with pix := px } P := by
  intro q hq
  cases q with
  | pixel p => exact h p hq
  | _ => rfl

/-- Settles O27: every row becomes zero, and only pixels are written. -/
theorem clsClearsThePixels : Obligations.ClsClearsThePixels := by
  intro s
  exact ⟨rfl, _, rfl, pixelAt_replicate_zero, State.sameBut_pix fun p hp => absurd ⟨p, rfl⟩ hp⟩

/-! ### The cells of a sprite (R63) -/

/-- The cell that bit `c` of sprite row `r` is drawn on; it is processed when it is not past column 63. -/
abbrev State.spriteCell (s : State) (x y : Nibble) (r c : Nat) : Nat := (s.startRow y + r) * 64 + (s.startColumn x + c)

/-- Bit `c` of sprite row `r`, the most significant first. -/
abbrev State.spriteBit (s : State) (r c : Nat) : Bool := (s.readByte (s.index.toNat + r)).getLsbD (7 - c)

/-- Some processed cell holds 1 and receives a 1. -/
def State.collides (s : State) (x y n : Nibble) : Prop :=
  ∃ r c, r < n.toNat ∧ c < 8 ∧ s.startColumn x + c < 64 ∧ s.spriteBit r c = true ∧
    pixelAt s.pix (s.spriteCell x y r c) = true

/-- The pixels with the sprite drawn, and whether it collided. -/
def State.spriteOver (s : State) (x y n : Nibble) : Pixels × Bool :=
  drawRows (s.startColumn x) (s.startRow y)
    (Memory.readList (Memory.background s.cfg) s.mem s.index.toNat n.toNat) (s.pix, false)

/-- The state DRW answers where it does not fault (`exec_drw_of_fits`). -/
def State.drawn (s : State) (x y n : Nibble) : State :=
  { s with pix := (s.spriteOver x y n).1 }.setFlag (s.spriteOver x y n).2

theorem State.startColumn_lt (s : State) (x : Nibble) : s.startColumn x < 64 := Nat.mod_lt _ (by decide)

section

variable {s : State} {x y n : Nibble}

/-! ### Where DRW draws, and its two faults -/

theorem exec_drw_of_fits (hmem : n.toNat = 0 ∨ s.index.toNat + n.toNat ≤ memSize)
    (hrows : s.startRow y + n.toNat ≤ 32) : exec (.drwVxVyNibble x y n) s = .next (s.drawn x y n) := by
  have hload := (State.loadBytes_eq_some (s := s)).2 ⟨hmem, rfl⟩
  simp only [exec, execDrwVxVyNibble, hload, if_neg (Nat.not_lt.2 hrows)]
  rfl

/-- The memory check is made first. -/
theorem exec_drw_of_memory_fault (hn : 0 < n.toNat) (hmem : memSize < s.index.toNat + n.toNat) :
    exec (.drwVxVyNibble x y n) s =
      raiseAt (.drwVxVyNibble x y n) .memoryOutOfBounds (some s.index.toNat) (some n.toNat) s := by
  have hload := (State.loadBytes_eq_none (s := s)).2 ⟨Nat.ne_of_gt hn, hmem⟩
  simp only [exec, execDrwVxVyNibble, hload]

/-- The display check is made where the sprite's bytes exist. -/
theorem exec_drw_of_display_fault (hmem : n.toNat = 0 ∨ s.index.toNat + n.toNat ≤ memSize)
    (hrows : 32 < s.startRow y + n.toNat) :
    exec (.drwVxVyNibble x y n) s =
      raiseAt (.drwVxVyNibble x y n) .displayOutOfBounds (some (s.startRow y)) (some n.toNat) s := by
  have hload := (State.loadBytes_eq_some (s := s)).2 ⟨hmem, rfl⟩
  simp only [exec, execDrwVxVyNibble, hload, if_pos hrows]

/-! ### What a drawing leaves -/

@[simp] theorem State.pix_drawn : (s.drawn x y n).pix = (s.spriteOver x y n).1 := rfl

@[simp] theorem State.flag_drawn : (s.drawn x y n).flag = if (s.spriteOver x y n).2 then 1 else 0 := rfl

theorem State.spriteBit_drawn (r c : Nat) : (s.drawn x y n).spriteBit r c = s.spriteBit r c := rfl

/-- A register that is not the flag's cell keeps its value. -/
theorem State.getV_drawn {z : Nibble} (hz : s.isFlagCell z = false) : (s.drawn x y n).getV z = s.getV z := by
  have hz' : ({ s with pix := (s.spriteOver x y n).1 } : State).isFlagCell z = false := hz
  rw [State.drawn, State.getV_setFlag, hz']
  rfl

section

variable (hrows : s.startRow y + n.toNat ≤ 32)

include hrows

/-- A processed cell ends as `bit AND NOT old`. -/
theorem State.pixelAt_spriteOver {r c : Nat} (hr : r < n.toNat) (hc : c < 8) (hcol : s.startColumn x + c < 64) :
    pixelAt (s.spriteOver x y n).1 (s.spriteCell x y r c) =
      (s.spriteBit r c && !pixelAt s.pix (s.spriteCell x y r c)) := by
  have hdiv : s.spriteCell x y r c / 64 = s.startRow y + r := by dsimp only [State.spriteCell]; omega
  have hmod : s.spriteCell x y r c % 64 = s.startColumn x + c := by dsimp only [State.spriteCell]; omega
  rw [State.spriteOver, pixelAt_drawRows (s.startColumn_lt x) (by simpa using hrows),
    dif_pos (by rw [hdiv, hmod, Memory.length_readList]; omega)]
  simp only [hdiv, hmod, Nat.add_sub_cancel_left, Memory.getElem_readList]
  rfl

/-- A cell that is not processed keeps its value. -/
theorem State.pixelAt_spriteOver_of_ne {p : Nat}
    (h : ∀ r c, r < n.toNat → c < 8 → s.startColumn x + c < 64 → p ≠ s.spriteCell x y r c) :
    pixelAt (s.spriteOver x y n).1 p = pixelAt s.pix p := by
  rw [State.spriteOver, pixelAt_drawRows (s.startColumn_lt x) (by simpa using hrows), dif_neg]
  rw [Memory.length_readList]
  intro hin
  refine h (p / 64 - s.startRow y) (p % 64 - s.startColumn x) (by omega) (by omega) (by omega) ?_
  dsimp only [State.spriteCell]
  omega

theorem State.spriteOver_hit_iff : (s.spriteOver x y n).2 = true ↔ s.collides x y n := by
  rw [State.spriteOver, hit_drawRows (s.startColumn_lt x) (by simpa using hrows)]
  simp only [Memory.length_readList, Memory.getElem_readList, Bool.false_eq_true, false_or, exists_prop,
    exists_and_left, State.collides]
  rfl

/-- The flag is 1 exactly after a collision. -/
theorem State.flag_drawn_eq_one_iff : (s.drawn x y n).flag = 1 ↔ s.collides x y n := by
  rw [State.flag_drawn, ← State.spriteOver_hit_iff hrows]
  split <;> simp_all

theorem State.flag_drawn_of_not_collides (h : ¬ s.collides x y n) : (s.drawn x y n).flag = 0 := by
  rw [State.flag_drawn, if_neg (mt (State.spriteOver_hit_iff hrows).1 h)]

/-- A drawing changes the processed cells and the flag alone. -/
theorem State.sameBut_drawn :
    s.sameBut (s.drawn x y n) (fun q => s.isFlag q ∨
      ∃ r c, r < n.toNat ∧ c < 8 ∧ s.startColumn x + c < 64 ∧ q = .pixel (s.spriteCell x y r c)) := by
  refine State.sameBut_trans (t := { s with pix := (s.spriteOver x y n).1 }) (State.sameBut_pix fun p hp => ?_)
    (State.sameBut_mono (State.sameBut_setFlag _ _) fun _ hq => .inl hq)
  exact State.pixelAt_spriteOver_of_ne hrows fun r c hr hc hcol hcell => hp (.inr ⟨r, c, hr, hc, hcol, hcell ▸ rfl⟩)

end

end

/-- Settles O28: the two faults in their order, and otherwise the drawing's cells, flag and frame. -/
theorem drwDrawsWithCollision : Obligations.DrwDrawsWithCollision := by
  intro x y n s cx cy I
  refine ⟨rfl, exec_drw_of_memory_fault, exec_drw_of_display_fault, fun hmem hrows => ?_⟩
  exact ⟨s.drawn x y n, exec_drw_of_fits hmem hrows, fun r c => State.pixelAt_spriteOver hrows,
    (State.flag_drawn_eq_one_iff hrows).2, State.flag_drawn_of_not_collides hrows, State.sameBut_drawn hrows⟩

/-! ### The same sprite twice (90_conflicts.md C5) -/

section

variable {s : State} {x y n : Nibble}

theorem State.startColumn_drawn (hx : s.isFlagCell x = false) :
    (s.drawn x y n).startColumn x = s.startColumn x := by rw [State.startColumn, State.getV_drawn hx]

theorem State.startRow_drawn (hy : s.isFlagCell y = false) : (s.drawn x y n).startRow y = s.startRow y := by
  rw [State.startRow, State.getV_drawn hy]

variable (hx : s.isFlagCell x = false) (hy : s.isFlagCell y = false)

include hx hy

theorem State.spriteCell_drawn (r c : Nat) : (s.drawn x y n).spriteCell x y r c = s.spriteCell x y r c := by
  rw [State.spriteCell, State.startColumn_drawn hx, State.startRow_drawn hy]

variable (hrows : s.startRow y + n.toNat ≤ 32)

include hrows

/-- The second drawing leaves `bit AND old`: `bit AND NOT (bit AND NOT old)`. -/
theorem State.pixelAt_spriteOver_drawn {r c : Nat} (hr : r < n.toNat) (hc : c < 8)
    (hcol : s.startColumn x + c < 64) :
    pixelAt ((s.drawn x y n).spriteOver x y n).1 (s.spriteCell x y r c) =
      (s.spriteBit r c && pixelAt s.pix (s.spriteCell x y r c)) := by
  have hsecond := State.pixelAt_spriteOver (s := s.drawn x y n) (State.startRow_drawn hy ▸ hrows) hr hc
    (State.startColumn_drawn hx ▸ hcol)
  rw [State.spriteCell_drawn hx hy, State.pix_drawn, State.pixelAt_spriteOver hrows hr hc hcol] at hsecond
  rw [hsecond, State.spriteBit_drawn]
  cases s.spriteBit r c <;> simp

/-- The second drawing collides exactly where a 1 bit falls on a cell that was 0 before the first. -/
theorem State.collides_drawn_iff :
    (s.drawn x y n).collides x y n ↔
      ∃ r c, r < n.toNat ∧ c < 8 ∧ s.startColumn x + c < 64 ∧ s.spriteBit r c = true ∧
        pixelAt s.pix (s.spriteCell x y r c) = false := by
  unfold State.collides
  refine exists_congr fun r => exists_congr fun c => ?_
  rw [State.startColumn_drawn hx, State.spriteCell_drawn hx hy, State.spriteBit_drawn]
  refine and_congr_right fun hr => and_congr_right fun hc => and_congr_right fun hcol => and_congr_right fun hbit => ?_
  rw [State.pix_drawn, State.pixelAt_spriteOver hrows hr hc hcol, hbit, Bool.true_and, Bool.not_eq_true']

end

/-- Settles O29: both drawings are `State.drawn`, the second of the state the first left. -/
theorem drawingTwice : Obligations.DrawingTwice := by
  intro x y n s t u cx cy I hmem hrows hx hy ht hu
  have hrows' : (s.drawn x y n).startRow y + n.toNat ≤ 32 := State.startRow_drawn hy ▸ hrows
  rw [exec_drw_of_fits (.inr hmem) hrows] at ht
  cases ht
  rw [exec_drw_of_fits (s := s.drawn x y n) (.inr hmem) hrows'] at hu
  cases hu
  exact ⟨fun r c => State.pixelAt_spriteOver_drawn hx hy hrows,
    (State.flag_drawn_eq_one_iff hrows').trans (State.collides_drawn_iff hx hy hrows)⟩

end Sys2Proof.Machine
end

section
/-! SUPPORT. The control-flow family (41_control_flow.md R64 to R72): the values the jumps and skips leave in `pc`, what
RET and CALL do by the stack pointer, and the frames of all of them. -/

namespace Sys2Proof.Machine

/-! ### The values in `pc` -/

/-- `zext_16` keeps the value (R50). -/
theorem toNat_addrWord (nnn : Addr) : (addrWord nnn).toNat = nnn.toNat :=
  BitVec.toNat_setWidth_of_le (by decide)

/-- `zext_16` keeps the value (R72). -/
theorem toNat_byteWord (b : Byte) : (byteWord b).toNat = b.toNat :=
  BitVec.toNat_setWidth_of_le (by decide)

/-- An address field and a byte add up as natural numbers (R72). -/
theorem toNat_addrWord_add_byteWord (nnn : Addr) (b : Byte) :
    (addrWord nnn + byteWord b).toNat = nnn.toNat + b.toNat := by
  have := nnn.isLt
  have := b.isLt
  rw [BitVec.toNat_add, toNat_addrWord, toNat_byteWord, Nat.mod_eq_of_lt (by omega)]

theorem State.toNat_pc_skipIf (s : State) (c : Bool) :
    (s.skipIf c).pc.toNat = if c = true then (s.pc.toNat + 2) % 65536 else s.pc.toNat := by
  cases c <;> rfl

/-- A skip on equality, by the values compared (R68, R70). -/
theorem State.toNat_pc_skipIf_beq (s : State) (a b : Byte) :
    (s.skipIf (a == b)).pc.toNat = if a.toNat = b.toNat then (s.pc.toNat + 2) % 65536 else s.pc.toNat := by
  simp only [State.toNat_pc_skipIf, beq_iff_eq, BitVec.toNat_inj]

/-- A skip on inequality, by the values compared (R69, R71). -/
theorem State.toNat_pc_skipIf_bne (s : State) (a b : Byte) :
    (s.skipIf (a != b)).pc.toNat = if a.toNat = b.toNat then s.pc.toNat else (s.pc.toNat + 2) % 65536 := by
  simp only [State.toNat_pc_skipIf, bne_iff_ne, ne_eq, ite_not, BitVec.toNat_inj]

/-! ### Frames -/

/-- A jump changes `pc` alone. -/
theorem State.sameBut_pc (s : State) (p : Word) : s.sameBut { s with pc := p } (fun q => q = .pc) := by
  intro q hq
  cases q with
  | pc => exact absurd rfl hq
  | _ => rfl

/-- A skip changes `pc` alone, whether it is taken or not. -/
theorem State.sameBut_skipIf (s : State) : ∀ c : Bool, s.sameBut (s.skipIf c) (fun q => q = .pc)
  | true => s.sameBut_pc (s.pc + 2)
  | false => s.sameBut_pc s.pc

/-- A pop changes `sp` and `pc` alone. -/
theorem State.sameBut_sp_pc (s : State) (k : Fin 16) (p : Word) :
    s.sameBut { s with sp := k, pc := p } (fun q => q = .sp ∨ q = .pc) := by
  intro q hq
  cases q with
  | sp => exact absurd (.inl rfl) hq
  | pc => exact absurd (.inr rfl) hq
  | _ => rfl

/-- A push changes `sp`, `pc` and the slot it writes alone. -/
theorem State.sameBut_push (s : State) (k : Fin 16) (v p : Word) :
    s.sameBut { s with sp := k, stack := s.stack.set k.val v, pc := p }
      (fun q => q = .sp ∨ q = .pc ∨ q = .slot k) := by
  intro q hq
  cases q with
  | sp => exact absurd (.inl rfl) hq
  | pc => exact absurd (.inr (.inl rfl)) hq
  | slot j =>
    have hj : k.val ≠ j.val := fun e => hq (.inr (.inr (by rw [Fin.ext e])))
    exact Vector.getElem_set_ne k.isLt j.isLt hj
  | _ => rfl

/-! ### RET and CALL by the stack pointer -/

/-- One more as a number is one more as a stack pointer (R22). -/
theorem eq_add_one_of_val {a b : Fin 16} (h : b.val = a.val + 1) : b = a + 1 := by
  have hlt : a.val < 15 := by omega
  exact Fin.ext (h.trans (Fin.val_add_one_of_lt hlt).symm)

/-- RET from an empty stack underflows (R65). -/
theorem execRet_of_empty {s : State} (hsp : s.sp = 0) : execRet s = raiseAt .ret .stackUnderflow none none s :=
  if_pos hsp

/-- RET from a stack that is not empty under DOCUMENTED pops the slot below `sp` (R65). -/
theorem execRet_of_documented {s : State} (hsp : s.sp ≠ 0) (hd : s.cfg.stackDiscipline = .documented) :
    execRet s = .next { s with sp := s.sp - 1, pc := s.stack[(s.sp - 1).val] } := by
  simp [execRet, hsp, hd]

/-- CALL on a full stack overflows (R67). -/
theorem execCallAddr_of_full {nnn : Addr} {s : State} (hsp : s.sp = 15) :
    execCallAddr nnn s = raiseAt (.callAddr nnn) .stackOverflow none none s := if_pos hsp

/-- CALL on a stack that is not full pushes and jumps (R67). -/
theorem execCallAddr_of_room {nnn : Addr} {s : State} (hsp : s.sp ≠ 15) :
    execCallAddr nnn s = .next { s with
      sp := s.sp + 1, stack := s.stack.set (s.sp + 1).val (s.pushedByCall nnn), pc := addrWord nnn } := if_neg hsp

theorem State.pushedByCall_of_documented {s : State} (hd : s.cfg.stackDiscipline = .documented) (nnn : Addr) :
    s.pushedByCall nnn = addrWord nnn := by simp [State.pushedByCall, hd]

theorem State.pushedByCall_of_returnAddress {s : State} (hd : s.cfg.stackDiscipline = .returnAddress) (nnn : Addr) :
    s.pushedByCall nnn = s.pc := by simp [State.pushedByCall, hd]

/-! ### The obligations -/

/-- Settles O30: the words decode by computation, and the rule's test is the halt row. -/
theorem haltStopsTheCore : Obligations.HaltStopsTheCore :=
  ⟨rfl, rfl, rfl, fun _ hrow => if_pos hrow⟩

/-- Settles O31: the underflow at `sp = 0`, and above it one pop for each discipline. -/
theorem retPopsTheStack : Obligations.RetPopsTheStack := by
  intro s
  refine ⟨rfl, execRet_of_empty, fun below hbelow => ?_⟩
  have hne : s.sp ≠ 0 := fun h0 => by simp [h0] at hbelow
  obtain rfl : s.sp - 1 = below := sub_eq_of_eq_add (eq_add_one_of_val hbelow.symm)
  cases hd : s.cfg.stackDiscipline with
  | documented =>
    exact ⟨_, execRet_of_documented hne hd, rfl, fun _ => rfl, nofun, s.sameBut_sp_pc _ _⟩
  | returnAddress =>
    exact ⟨_, execRet_of_returnAddress hne hd, rfl, nofun, fun _ => rfl, s.sameBut_sp_pc _ _⟩

/-- Settles O32: the rule writes `pc` alone, with the zero-extended address. -/
theorem jpSetsThePc : Obligations.JpSetsThePc := fun nnn s =>
  ⟨rfl, _, rfl, toNat_addrWord nnn, s.sameBut_pc _⟩

/-- Settles O33: the overflow at `sp = 15`, and below it one push whose value the discipline chooses. -/
theorem callPushesTheStack : Obligations.CallPushesTheStack := by
  intro nnn s
  refine ⟨rfl, execCallAddr_of_full, fun above habove => ?_⟩
  have hne : s.sp ≠ 15 := fun h15 => by simp [h15] at habove; omega
  obtain rfl : above = s.sp + 1 := eq_add_one_of_val habove
  have hpushed : (s.stack.set (s.sp + 1).val (s.pushedByCall nnn))[(s.sp + 1).val] = s.pushedByCall nnn :=
    Vector.getElem_set_self _
  refine ⟨_, execCallAddr_of_room hne, rfl, toNat_addrWord nnn, fun hd => ?_, fun hd => ?_, s.sameBut_push _ _ _⟩
  · rw [hpushed, State.pushedByCall_of_documented hd, toNat_addrWord]
  · rw [hpushed, State.pushedByCall_of_returnAddress hd]

/-- Settles O35: both rules are a skip on the comparison of `V[x]` with the byte. -/
theorem skipsOnAByte : Obligations.SkipsOnAByte := fun _ _ s =>
  ⟨rfl, rfl, ⟨_, rfl, s.toNat_pc_skipIf_beq _ _, s.sameBut_skipIf _⟩,
    ⟨_, rfl, s.toNat_pc_skipIf_bne _ _, s.sameBut_skipIf _⟩⟩

/-- Settles O36: both rules are a skip on the comparison of `V[x]` with `V[y]`. -/
theorem skipsOnTwoRegisters : Obligations.SkipsOnTwoRegisters := fun _ _ s =>
  ⟨rfl, rfl, ⟨_, rfl, s.toNat_pc_skipIf_beq _ _, s.sameBut_skipIf _⟩,
    ⟨_, rfl, s.toNat_pc_skipIf_bne _ _, s.sameBut_skipIf _⟩⟩

/-- Settles O37: the rule writes `pc` alone, with a sum that stays below 2^16. -/
theorem jpV0AddsV0 : Obligations.JpV0AddsV0 := fun nnn s =>
  ⟨rfl, _, rfl, toNat_addrWord_add_byteWord nnn (s.getV 0), s.sameBut_pc _⟩

end Sys2Proof.Machine
end

section
/-! SUPPORT. The ALU family (42_alu.md R73 to R85): what the two register writes of the rules leave, the results and the
dropped bits as natural numbers, and the claims about each rule. -/

namespace Sys2Proof.Machine

/-! ### What a rule's write leaves -/

section
variable (s : State) (x : Nibble) (b : Bool) (v : Byte)

/-- The register written reads as the value written (R17). -/
theorem State.getV_setV_self : (s.setV x v).getV x = v := by
  rw [State.getV_setV, if_pos rfl]

/-- The result remains in its register, the flag's own cell included (R18). -/
theorem State.getV_setFlagThenV_self : (s.setFlagThenV x b v).getV x = v := by
  rw [State.getV_setFlagThenV, if_pos rfl]

variable {s x} in
/-- The flag remains in its register where the result has another cell (R18). -/
theorem State.flag_setFlagThenV_of_ne (hx : s.isFlagCell x = false) :
    (s.setFlagThenV x b v).flag = if b then 1 else 0 := by
  simp [State.flag_setFlagThenV, hx]

/-- A draw changes the count of draws alone (log 6). -/
theorem State.sameBut_tookDraw : s.sameBut s.tookDraw (fun q => q = .draws) := by
  intro q hq
  cases q with
  | draws => exact absurd rfl hq
  | _ => rfl

/-- A random byte stored changes its register and the count of draws alone (R85). -/
theorem State.sameBut_tookDraw_setV : s.sameBut (s.tookDraw.setV x v) (fun q => s.isV x q ∨ q = .draws) :=
  State.sameBut_trans (State.sameBut_mono s.sameBut_tookDraw fun _ => .inr)
    (State.sameBut_mono (s.tookDraw.sameBut_setV x v) fun _ => .inl)

end

/-! ### Results and flags as numbers -/

section
variable (a b op : Byte)

/-- `trunc_8` of a natural number is its residue (R75, R80). -/
theorem toNat_truncByte (n : Nat) : (truncByte n).toNat = n % 256 := BitVec.toNat_ofNat n 8

/-- `trunc_8` of a difference is its residue, reached from 256 above (R81). -/
theorem toNat_truncByteInt_exactDiff : (truncByteInt (exactDiff a b)).toNat = (256 + a.toNat - b.toNat) % 256 := by
  have hb := b.isLt
  rw [truncByteInt, BitVec.toNat_ofInt, exactDiff]
  omega

/-- The flag of a subtraction is the strict comparison of its operands (R81, R82). -/
theorem positiveFlag_exactDiff : positiveFlag (exactDiff a b) = decide (b.toNat < a.toNat) :=
  decide_eq_decide.2 (by rw [exactDiff]; omega)

/-- A right shift by one halves (R83). -/
theorem toNat_ushiftRight_one : (op >>> 1).toNat = op.toNat / 2 := by
  rw [BitVec.toNat_ushiftRight, Nat.shiftRight_eq_div_pow, pow_one]

/-- A left shift by one doubles modulo 256 (R84). -/
theorem toNat_shiftLeft_one : (op <<< 1).toNat = 2 * op.toNat % 256 := by
  rw [BitVec.toNat_shiftLeft, Nat.shiftLeft_eq, pow_one, mul_comm]

/-- The bit a right shift drops is the operand's parity (R83). -/
theorem shiftedOutRight_eq : shiftedOutRight op = decide (op.toNat % 2 = 1) := by
  rw [shiftedOutRight, BitVec.getLsbD, Nat.testBit_zero]

/-- The parity written as a flag is the residue modulo 2 (R16, R83). -/
theorem toNat_flag_shiftedOutRight : (if shiftedOutRight op then 1 else 0 : Byte).toNat = op.toNat % 2 := by
  rw [shiftedOutRight_eq]
  obtain h | h := Nat.mod_two_eq_zero_or_one op.toNat <;> simp [h]

/-- The comparison written as a flag (R16, R84). -/
theorem toNat_flag_shiftedOutLeft :
    (if shiftedOutLeft op then 1 else 0 : Byte).toNat = if 127 < op.toNat then 1 else 0 := by
  by_cases h : 127 < op.toNat <;> simp [shiftedOutLeft, h]

end

/-- The shift operand by the parameter (R83). -/
theorem State.shiftOperand_eq (s : State) (x y : Nibble) :
    s.shiftOperand x y = if s.cfg.shiftSource = .vy then s.getV y else s.getV x := by
  cases h : s.cfg.shiftSource <;> simp [State.shiftOperand, h]

/-! ### The obligations -/

/-- Settles O38: the rule is one write of the immediate. -/
theorem ldByteLoads : Obligations.LdByteLoads := fun x nn s =>
  ⟨rfl, _, rfl, s.getV_setV_self x nn, s.sameBut_setV x nn⟩

/-- Settles O39: the rule is one write of the truncated sum. -/
theorem addByteWraps : Obligations.AddByteWraps := fun x _ s =>
  ⟨rfl, _, rfl, by rw [State.getV_setV_self, toNat_truncByte], s.sameBut_setV x _⟩

/-- Settles O40: the rule is one write of the other register. -/
theorem ldRegisterCopies : Obligations.LdRegisterCopies := fun x y s =>
  ⟨rfl, _, rfl, s.getV_setV_self x (s.getV y), s.sameBut_setV x _⟩

/-- Settles O41: each rule is one write, of a result that is bitwise by definition. -/
theorem bitwiseResults : Obligations.BitwiseResults := by
  intro x y s
  refine ⟨rfl, rfl, rfl, ⟨_, rfl, fun b => ?_, s.sameBut_setV x _⟩, ⟨_, rfl, fun b => ?_, s.sameBut_setV x _⟩,
    ⟨_, rfl, fun b => ?_, s.sameBut_setV x _⟩⟩
  · rw [State.getV_setV_self, BitVec.getLsbD_or]
  · rw [State.getV_setV_self, BitVec.getLsbD_and]
  · rw [State.getV_setV_self, BitVec.getLsbD_xor]

/-- Settles O42: the rule writes the carry and then the truncated sum, which remains where the two share a cell. -/
theorem addSetsTheCarry : Obligations.AddSetsTheCarry := by
  intro x y s
  refine ⟨rfl, _, rfl, ?_, fun hx => ?_, s.sameBut_setFlagThenV x _ _⟩
  · rw [State.getV_setFlagThenV_self, toNat_truncByte]
  · simp only [State.flag_setFlagThenV_of_ne _ _ hx, carryFlag, decide_eq_true_eq]

/-- Settles O43: both rules store a difference with its flag, the operands exchanged. -/
theorem subSetsThePositiveFlag : Obligations.SubSetsThePositiveFlag := by
  intro x y s
  refine ⟨rfl, rfl, ⟨_, rfl, ?_, fun hx => ?_, s.sameBut_setFlagThenV x _ _⟩,
    ⟨_, rfl, ?_, fun hx => ?_, s.sameBut_setFlagThenV x _ _⟩⟩
  · rw [State.getV_setFlagThenV_self, toNat_truncByteInt_exactDiff]
  · simp only [State.flag_setFlagThenV_of_ne _ _ hx, positiveFlag_exactDiff, decide_eq_true_eq]
  · rw [State.getV_setFlagThenV_self, toNat_truncByteInt_exactDiff]
  · simp only [State.flag_setFlagThenV_of_ne _ _ hx, positiveFlag_exactDiff, decide_eq_true_eq]

/-- Settles O44: each rule writes the bit its shift drops and then the shifted operand. -/
theorem shiftsSetTheDroppedBit : Obligations.ShiftsSetTheDroppedBit := by
  intro x y s
  rw [← State.shiftOperand_eq]
  refine ⟨rfl, rfl, ⟨_, rfl, ?_, fun hx => ?_, s.sameBut_setFlagThenV x _ _⟩,
    ⟨_, rfl, ?_, fun hx => ?_, s.sameBut_setFlagThenV x _ _⟩⟩
  · rw [State.getV_setFlagThenV_self, toNat_ushiftRight_one]
  · rw [State.flag_setFlagThenV_of_ne _ _ hx, toNat_flag_shiftedOutRight]
  · rw [State.getV_setFlagThenV_self, toNat_shiftLeft_one]
  · rw [State.flag_setFlagThenV_of_ne _ _ hx, toNat_flag_shiftedOutLeft]

/-- Settles O45: the rule counts one draw and writes the masked byte, so a bit absent from the mask is absent from it. -/
theorem rndMasksTheDraw : Obligations.RndMasksTheDraw := by
  intro x nn s
  refine ⟨rfl, s.tookDraw.setV x (Config.randByte s.draws &&& nn), rfl, State.getV_setV_self _ _ _, fun b hb => ?_,
    State.draws_setV _ _ _, s.sameBut_tookDraw_setV x _⟩
  rw [State.getV_setV_self, BitVec.getLsbD_and, hb, Bool.and_false]

end Sys2Proof.Machine
end

section
/-! SUPPORT. The index-register and memory family (43_index_memory.md R86 to R91): the values left in `I`, where the
rules complete and where they fault, and the claims about each rule. -/

namespace Sys2Proof.Machine

/-! ### What is written to `I` -/

/-- A write of `I` changes it alone. -/
theorem State.sameBut_index (s : State) (w : Word) : s.sameBut { s with index := w } (fun q => q = .index) := by
  intro q hq
  cases q with
  | index => exact absurd rfl hq
  | _ => rfl

/-- The glyph address is far below 2^16 for every byte, so nothing wraps (R88). -/
theorem toNat_glyphAddress (d : Byte) : (glyphAddress d).toNat = glyphBase + 5 * d.toNat := by
  have hd := d.isLt
  rw [glyphAddress, BitVec.toNat_ofNat, Nat.mod_eq_of_lt (by simp only [glyphBase]; omega)]

/-! ### Lists of bytes stored and loaded -/

/-- A stored byte is read back at its place in the list (R38, R41). -/
theorem State.readByte_storeBytes_add {s t : State} {a j : Nat} {bs : List Byte} (hw : s.memWf = true)
    (h : s.storeBytes a bs = some t) (hj : j < bs.length) : t.readByte (a + j) = bs[j] := by
  rw [State.readByte_storeBytes hw h, dif_pos (by omega)]
  simp only [Nat.add_sub_cancel_left]

/-- The digits as natural numbers (R89): there are three under PADDED, and no leading zeros under LITERAL. -/
theorem map_toNat_decimalDigits (mode : BcdMode) (v : Byte) :
    (decimalDigits mode v).map BitVec.toNat =
      if mode = .padded then [v.toNat / 100, v.toNat / 10 % 10, v.toNat % 10]
      else if v.toNat < 10 then [v.toNat]
      else if v.toNat < 100 then [v.toNat / 10, v.toNat % 10]
      else [v.toNat / 100, v.toNat / 10 % 10, v.toNat % 10] := by
  have hdigit : ∀ d ≤ v.toNat, (BitVec.ofNat 8 d).toNat = d := fun d hd => by
    rw [BitVec.toNat_ofNat, Nat.mod_eq_of_lt (hd.trans_lt v.isLt)]
  have hundreds := hdigit (v.toNat / 100) (by omega)
  have tens := hdigit (v.toNat / 10 % 10) (by omega)
  have units := hdigit (v.toNat % 10) (by omega)
  cases mode with
  | padded => simp only [decimalDigits, List.map, hundreds, tens, units, if_true]
  | literal =>
    simp only [decimalDigits, reduceCtorEq, if_false]
    split
    next h1 => rw [List.map_cons, List.map_nil, units, Nat.mod_eq_of_lt h1]
    next _ =>
      split
      next h2 =>
        have htens : v.toNat / 10 < 10 := Nat.div_lt_of_lt_mul h2
        rw [List.map_cons, List.map_cons, List.map_nil, tens, units, Nat.mod_eq_of_lt htens]
      next _ => simp only [List.map, hundreds, tens, units]

/-- There is always a digit to store. -/
theorem length_decimalDigits_ne_zero (mode : BcdMode) (v : Byte) : (decimalDigits mode v).length ≠ 0 := by
  rw [← List.length_map (f := BitVec.toNat), map_toNat_decimalDigits]
  split_ifs <;> exact Nat.succ_ne_zero _

/-- Loading consecutive registers changes those alone (and the flag where it is one of them, R17). -/
theorem State.sameBut_setVs : ∀ (bs : List Byte) (j : Nat) (s : State),
    s.sameBut (s.setVs j bs) (fun q => ∃ k, k < bs.length ∧ s.isV (BitVec.ofNat 4 (j + k)) q)
  | [], _, _ => fun q _ => by cases q <;> rfl
  | b :: bs, j, s => by
    have hfirst := s.sameBut_setV (BitVec.ofNat 4 j) b
    have hrest := State.sameBut_setVs bs (j + 1) (s.setV (BitVec.ofNat 4 j) b)
    refine State.sameBut_trans (State.sameBut_mono hfirst ?_) (State.sameBut_mono hrest ?_)
    · exact fun q hq => ⟨0, Nat.succ_pos _, hq⟩
    · rintro q ⟨k, hk, hq⟩
      refine ⟨k + 1, Nat.succ_lt_succ hk, ?_⟩
      simpa only [State.isV, State.isFlagCell_setV, Nat.add_assoc, Nat.add_comm 1 k] using hq

/-! ### Where the rules complete, and where they fault -/

section

variable {x : Nibble} {s t : State}

/-- LD F of a digit points `I` at its glyph (R88). -/
theorem execLdFVx_of_digit (h : (s.getV x).toNat ≤ 0xF) :
    execLdFVx x s = .next { s with index := glyphAddress (s.getV x) } := if_neg (Nat.not_lt.2 h)

/-- LD F of a value above 0xF faults (R88). -/
theorem execLdFVx_of_not_digit (h : 0xF < (s.getV x).toNat) :
    execLdFVx x s = raiseAt (.ldFVx x) .undefinedOperand (some (s.getV x).toNat) (some 1) s := if_pos h

/-- LD B answers the state its store leaves (R89). -/
theorem execLdBVx_of_stored (h : s.storeBytes s.index.toNat (decimalDigits s.cfg.bcdMode (s.getV x)) = some t) :
    execLdBVx x s = .next t := by
  simp only [execLdBVx, h]

/-- LD B whose last digit has no address faults (R89). -/
theorem execLdBVx_of_not_fits (h : memSize < s.index.toNat + (decimalDigits s.cfg.bcdMode (s.getV x)).length) :
    execLdBVx x s = raiseAt (.ldBVx x) .memoryOutOfBounds (some s.index.toNat)
      (some (decimalDigits s.cfg.bcdMode (s.getV x)).length) s := by
  have hnone := (State.storeBytes_eq_none (s := s)).2 ⟨length_decimalDigits_ne_zero s.cfg.bcdMode (s.getV x), h⟩
  simp only [execLdBVx, hnone]

/-- LD [I], Vx answers the state its store leaves (R90). -/
theorem execLdMemVx_of_stored (h : s.storeBytes s.index.toNat (s.getVs x) = some t) :
    execLdMemVx x s = .next t := by
  simp only [execLdMemVx, h]

/-- LD [I], Vx whose last register has no address faults (R90). -/
theorem execLdMemVx_of_not_fits (h : 0xFFF < s.index.toNat + x.toNat) :
    execLdMemVx x s = raiseAt (.ldMemVx x) .memoryOutOfBounds (some s.index.toNat) (some (x.toNat + 1)) s := by
  have hnone : s.storeBytes s.index.toNat (s.getVs x) = none :=
    State.storeBytes_eq_none.2 (by rw [State.length_getVs]; exact ⟨Nat.succ_ne_zero _, Nat.succ_lt_succ h⟩)
  simp only [execLdMemVx, hnone]

/-- LD Vx, [I] writes the bytes from `I` upward to the registers (R91). -/
theorem execLdVxMem_of_fits (h : s.index.toNat + x.toNat ≤ 0xFFF) :
    execLdVxMem x s = .next
      (s.setVs 0 (Memory.readList (Memory.background s.cfg) s.mem s.index.toNat (x.toNat + 1))) := by
  have hload := (State.loadBytes_eq_some (s := s) (a := s.index.toNat) (n := x.toNat + 1)).2
    ⟨.inr (Nat.succ_le_succ h), rfl⟩
  simp only [execLdVxMem, hload]

/-- LD Vx, [I] whose last byte does not exist faults (R91). -/
theorem execLdVxMem_of_not_fits (h : 0xFFF < s.index.toNat + x.toNat) :
    execLdVxMem x s = raiseAt (.ldVxMem x) .memoryOutOfBounds (some s.index.toNat) (some (x.toNat + 1)) s := by
  have hnone : s.loadBytes s.index.toNat (x.toNat + 1) = none :=
    State.loadBytes_eq_none.2 ⟨Nat.succ_ne_zero _, Nat.succ_lt_succ h⟩
  simp only [execLdVxMem, hnone]

end

/-- Loading the first registers from memory gives each its own byte (R91). -/
theorem State.getV_setVs_readList (s : State) (a : Nat) {x y : Nibble} (hy : y.toNat ≤ x.toNat) :
    (s.setVs 0 (Memory.readList (Memory.background s.cfg) s.mem a (x.toNat + 1))).getV y =
      s.readByte (a + y.toNat) := by
  have hx := x.isLt
  rw [State.getV_setVs (by rw [Memory.length_readList]; omega),
    dif_pos (by rw [Memory.length_readList]; omega), Memory.getElem_readList]
  rfl

/-! ### The obligations -/

/-- Settles O46: the rule writes `I` alone, with the zero-extended address. -/
theorem ldILoads : Obligations.LdILoads := fun nnn s =>
  ⟨rfl, _, rfl, toNat_addrWord nnn, s.sameBut_index _⟩

/-- Settles O47: the rule writes `I` alone, with a sum of words. -/
theorem addIWraps : Obligations.AddIWraps := fun _ s =>
  ⟨rfl, _, rfl, by rw [BitVec.toNat_add, toNat_byteWord], s.sameBut_index _⟩

/-- Settles O48: the two sides of the rule's test. -/
theorem ldFPointsAtTheGlyph : Obligations.LdFPointsAtTheGlyph := fun _ s =>
  ⟨rfl, fun hd => ⟨_, execLdFVx_of_digit hd, toNat_glyphAddress _, s.sameBut_index _⟩, execLdFVx_of_not_digit⟩

/-- Settles O49: the digits of the statement are the model's as numbers, stored whole or not at all. -/
theorem ldBStoresTheDigits : Obligations.LdBStoresTheDigits := by
  intro x s hw v I digits
  have hdigits : digits = (decimalDigits s.cfg.bcdMode (s.getV x)).map BitVec.toNat :=
    (map_toNat_decimalDigits _ _).symm
  simp only [hdigits, List.length_map, List.getElem_map]
  refine ⟨rfl, fun hfits => ?_, execLdBVx_of_not_fits⟩
  have hst := State.storeBytes_of_le (s := s) hfits
  exact ⟨_, execLdBVx_of_stored hst, fun j => congrArg _ (State.readByte_storeBytes_add hw hst _),
    State.sameBut_storeBytes hw hst⟩

/-- Settles O50: the registers are stored whole (`readByte_of_execLdMemVx`) or not at all. -/
theorem ldMemStoresTheRegisters : Obligations.LdMemStoresTheRegisters := by
  intro x s hw I
  refine ⟨rfl, fun hfits => ?_, execLdMemVx_of_not_fits⟩
  have hlen : s.index.toNat + (s.getVs x).length ≤ memSize := by
    rw [State.length_getVs]
    exact Nat.succ_le_succ hfits
  have hst := State.storeBytes_of_le (s := s) hlen
  refine ⟨_, execLdMemVx_of_stored hst, fun y => readByte_of_execLdMemVx hw hfits (execLdMemVx_of_stored hst), ?_⟩
  refine State.sameBut_mono (State.sameBut_storeBytes hw hst) ?_
  rintro q ⟨j, hj, rfl⟩
  rw [State.length_getVs] at hj
  exact ⟨j, Nat.le_of_lt_succ hj, rfl⟩

/-- Settles O51: the registers are loaded whole (`State.getV_setVs_readList`) or not at all. -/
theorem ldMemLoadsTheRegisters : Obligations.LdMemLoadsTheRegisters := by
  intro x s I
  refine ⟨rfl, fun hfits => ?_, execLdVxMem_of_not_fits⟩
  refine ⟨_, execLdVxMem_of_fits hfits, fun y => s.getV_setVs_readList I, ?_⟩
  refine State.sameBut_mono (s.sameBut_setVs _ 0) ?_
  rintro q ⟨k, hk, hq⟩
  rw [Memory.length_readList] at hk
  exact ⟨_, (Nat.mod_le _ _).trans (by omega), hq⟩

/-- Settles O52: the load reads the bytes that the store left at `I`, which it did not change. -/
theorem storeThenLoadRestoresRegisters : Obligations.StoreThenLoadRestoresRegisters := by
  intro x s t u hw hfits hstore hcfg hmem hindex
  have hkept : t.index = s.index := by
    rw [(State.storeBytes_eq_some.1 (storeBytes_of_execLdMemVx hfits hstore)).2]
  have hI : u.index = s.index := hindex.trans hkept
  refine ⟨_, execLdVxMem_of_fits (hI ▸ hfits), fun y hy => ?_⟩
  calc
    _ = u.readByte (u.index.toNat + y.toNat) := u.getV_setVs_readList _ hy
    _ = t.readByte (s.index.toNat + y.toNat) := by rw [State.readByte, State.readByte, hcfg, hmem, hI]
    _ = s.getV y := readByte_of_execLdMemVx hw hfits hstore hy

end Sys2Proof.Machine
end

section
/-! SUPPORT. The timer family (44_timers.md R92 to R94): the elapsed time as a natural number, what a time sample and the
writes stamped with it leave the same, and the claims about each rule. -/

namespace Sys2Proof.Machine

/-- The elapsed time is below 255, so its byte loses nothing (R92). -/
theorem State.toNat_elapsedByte (s : State) (t : Nat) : (s.elapsedByte t).toNat = (t - s.tdt) % 255 := by
  have hlt : (t - s.tdt) % 255 < 255 := Nat.mod_lt _ (by decide)
  rw [State.elapsedByte, BitVec.toNat_ofNat, Nat.mod_eq_of_lt (hlt.trans (by decide))]

/-! ### Frames -/

section
variable (s : State) (v : Byte) (t : Nat)

/-- A time sample changes the latest sample and the count of draws alone (log 4, log 6). -/
theorem State.sameBut_tookTime : s.sameBut s.tookTime (fun q => q = .clock ∨ q = .draws) := by
  intro q hq
  cases q with
  | clock => exact absurd (.inl rfl) hq
  | draws => exact absurd (.inr rfl) hq
  | _ => rfl

/-- A delay-timer write changes the value and its stamp alone (R93). -/
theorem State.sameBut_writeDelay : s.sameBut (s.writeDelay v t) (fun q => q = .dt ∨ q = .tdt) := by
  intro q hq
  cases q with
  | dt => exact absurd (.inl rfl) hq
  | tdt => exact absurd (.inr rfl) hq
  | _ => rfl

/-- A sound-timer write changes the value and its stamp alone (R94). -/
theorem State.sameBut_writeSound : s.sameBut (s.writeSound v t) (fun q => q = .st ∨ q = .tst) := by
  intro q hq
  cases q with
  | st => exact absurd (.inl rfl) hq
  | tst => exact absurd (.inr rfl) hq
  | _ => rfl

variable {s} in
/-- What is done after a time sample changes the sample's two fields besides its own parts. -/
theorem State.sameBut_of_sameBut_tookTime {u : State} {P : Part → Prop} (h : s.tookTime.sameBut u P) :
    s.sameBut u (fun q => P q ∨ q = .clock ∨ q = .draws) :=
  State.sameBut_trans (State.sameBut_mono s.sameBut_tookTime fun _ => .inr) (State.sameBut_mono h fun _ => .inl)

end

/-! ### The obligations -/

/-- Settles O54: the rule takes one sample, no earlier than the clock and so than `tDT`, and writes one register. -/
theorem ldDTReadsTheElapsedTime : Obligations.LdDTReadsTheElapsedTime := by
  intro x s hstamp
  refine ⟨rfl, s.tookTime.setV x (s.elapsedByte s.nowSample), s.nowSample, rfl, rfl,
    hstamp.trans s.clock_le_nowSample, State.clock_setV _ _ _, State.draws_setV _ _ _, ?_,
    State.sameBut_of_sameBut_tookTime (s.tookTime.sameBut_setV x _)⟩
  rw [State.getV_setV_self, State.toNat_elapsedByte]

/-- Settles O55: each rule takes one sample and then writes its timer's value and stamp. -/
theorem timerWritesStampTheTime : Obligations.TimerWritesStampTheTime := by
  intro x s now
  have hdelay := State.sameBut_of_sameBut_tookTime (s.tookTime.sameBut_writeDelay (s.getV x) now)
  have hsound := State.sameBut_of_sameBut_tookTime (s.tookTime.sameBut_writeSound (s.getV x) now)
  refine ⟨rfl, rfl, ⟨_, rfl, rfl, rfl, rfl, rfl, ?_⟩, ⟨_, rfl, rfl, rfl, rfl, rfl, ?_⟩⟩
  · exact State.sameBut_mono hdelay fun _ => or_assoc.1
  · exact State.sameBut_mono hsound fun _ => or_assoc.1

end Sys2Proof.Machine
end

section
/-! SUPPORT. The input family (45_input.md R95, R96): where a key skip faults and where it samples, the frame of the
sampled skip, and the claim about both rules. -/

namespace Sys2Proof.Machine

/-! ### Which values are key codes -/

theorem nibbleOf_of_lt {v : Byte} (h : 0xF < v.toNat) : nibbleOf v = none := if_neg (Nat.not_le.2 h)

/-- A code's value as a byte gives the code back. -/
theorem nibbleOf_of_toNat_eq {v : Byte} {k : Nibble} (h : k.toNat = v.toNat) : nibbleOf v = some k := by
  have hk : v.toNat < 16 := h ▸ k.isLt
  rw [nibbleOf, if_pos (Nat.le_of_lt_succ hk)]
  congr 1
  exact BitVec.eq_of_toNat_eq (by rw [BitVec.toNat_setWidth, Nat.mod_eq_of_lt hk, h])

/-! ### The outcomes of a key skip -/

section
variable {s : State} {i : Instr} {wanted : Bool} {v : Byte}

theorem keySkip_of_absent (hk : s.cfg.keypad = .absent) :
    keySkip i wanted v s = raiseAt i .unimplementedOpcode none none s := by
  simp only [keySkip, hk]

theorem keySkip_of_undefined (hk : s.cfg.keypad = .present) (hv : 0xF < v.toNat) :
    keySkip i wanted v s = raiseAt i .undefinedOperand (some v.toNat) (some 1) s := by
  simp only [keySkip, hk, nibbleOf_of_lt hv]

theorem keySkip_of_code {k : Nibble} (hk : s.cfg.keypad = .present) (hv : k.toNat = v.toNat) :
    keySkip i wanted v s = .next (s.tookDraw.skipIf (s.keySample k == wanted)) := by
  simp only [keySkip, hk, nibbleOf_of_toNat_eq hv]

end

/-- A skip after a sample changes `pc` and the count of draws alone (R111, log 6). -/
theorem State.sameBut_tookDraw_skipIf (s : State) (c : Bool) :
    s.sameBut (s.tookDraw.skipIf c) (fun q => q = .pc ∨ q = .draws) :=
  State.sameBut_trans (State.sameBut_mono s.sameBut_tookDraw fun _ => .inr)
    (State.sameBut_mono (s.tookDraw.sameBut_skipIf c) fun _ => .inl)

/-! ### The obligation -/

/-- Settles O56: both rules are `keySkip`, whose two checks fault in their order and which otherwise skips on one
sample. -/
theorem keySkips : Obligations.KeySkips := by
  intro x s
  refine ⟨rfl, rfl, ?_, fun k hk hv => ⟨?skp, ?sknp⟩⟩
  · rintro i (rfl | rfl) <;> exact ⟨keySkip_of_absent, keySkip_of_undefined⟩
  case skp =>
    refine ⟨_, keySkip_of_code hk hv, ?_, State.draws_skipIf _ _, s.sameBut_tookDraw_skipIf _⟩
    rw [State.toNat_pc_skipIf, beq_true, State.pc_tookDraw, State.keySample]
  case sknp =>
    refine ⟨_, keySkip_of_code hk hv, ?_, State.draws_skipIf _ _, s.sameBut_tookDraw_skipIf _⟩
    rw [State.toNat_pc_skipIf, beq_false, State.pc_tookDraw, State.keySample]
    cases Config.keyPressed s.draws k <;> rfl

end Sys2Proof.Machine
end

section
/-! SUPPORT. Fatal errors and the end of a run (60_exceptions.md R97 to R114): every step answers, a stopped core stays
as it is, reset's own fault, and what a faulting step leaves. -/

namespace Sys2Proof.Machine

/-! ### Every instruction and every step answers -/

/-- A key skip answers: its two faults are next states too (R95, R96; log 11). -/
theorem exists_keySkip_eq_next (i : Instr) (wanted : Bool) (v : Byte) (s : State) :
    ∃ t, keySkip i wanted v s = .next t := by
  unfold keySkip
  split
  · exact ⟨_, rfl⟩
  · split <;> exact ⟨_, rfl⟩

/-- Every rule answers a next state: the rules that branch answer on each branch, by a raise or by their update. -/
theorem exists_exec_eq_next (i : Instr) (s : State) : ∃ t, exec i s = .next t := by
  cases i with
  | halt =>
    simp only [exec, execHalt]
    split <;> exact ⟨_, rfl⟩
  | ret =>
    simp only [exec, execRet]
    split
    · exact ⟨_, rfl⟩
    · split <;> exact ⟨_, rfl⟩
  | callAddr nnn =>
    simp only [exec, execCallAddr]
    split <;> exact ⟨_, rfl⟩
  | drwVxVyNibble x y n =>
    simp only [exec, execDrwVxVyNibble]
    split
    · exact ⟨_, rfl⟩
    · split <;> exact ⟨_, rfl⟩
  | ldFVx x =>
    simp only [exec, execLdFVx]
    split <;> exact ⟨_, rfl⟩
  | ldBVx x =>
    simp only [exec, execLdBVx]
    split <;> exact ⟨_, rfl⟩
  | ldMemVx x =>
    simp only [exec, execLdMemVx]
    split <;> exact ⟨_, rfl⟩
  | ldVxMem x =>
    simp only [exec, execLdVxMem]
    split <;> exact ⟨_, rfl⟩
  | skpVx | sknpVx => exact exists_keySkip_eq_next ..
  | _ => exact ⟨_, rfl⟩

/-- A step of a core that has halted or faulted answers the same state (R114). -/
theorem step_of_stopped {s : State} (h : s.status ≠ .running) : step s = .next s := by
  unfold step
  split
  · rfl
  · rfl
  next hrun => exact absurd hrun h

/-- Every step answers a next state, by what the core's status, its fetch and its decoder answer. -/
theorem exists_step_eq_next (s : State) : ∃ t, step s = .next t := by
  by_cases hrun : s.status = .running
  · cases hf : s.fetchWord with
    | none => exact ⟨_, step_of_fetch_fault hrun hf⟩
    | some w =>
      cases hd : decodeWord s.cfg.haltOnZero w with
      | none => exact ⟨_, step_of_unknown hrun hf hd⟩
      | some i =>
        obtain ⟨u, hu⟩ := exists_exec_eq_next i s.advance
        exact ⟨_, (step_of_decoded hrun hf hd).trans (finishStep_eq_next.2 ⟨u, hu, rfl⟩)⟩
  · exact ⟨s, step_of_stopped hrun⟩

/-- Settles O13: the rules answer (`exists_exec_eq_next`), and so does every other way a step can go. -/
theorem everyStepAnswers : Obligations.EveryStepAnswers := ⟨exists_step_eq_next, exists_exec_eq_next⟩

/-! ### A core that has stopped -/

/-- A state that steps to itself is where every run from it ends. -/
theorem run_of_step_self {M : Host.Core} {s : M.State} (h : M.step s = .next s) : ∀ n, M.run n s = .next s
  | 0 => rfl
  | n + 1 => by
    rw [Host.Core.run, h]
    exact run_of_step_self h n

/-- Settles O11: such a core steps to itself (`step_of_stopped`), so a run of any length stays there. -/
theorem stoppedCoreDoesNothing : Obligations.StoppedCoreDoesNothing := fun _ n h =>
  run_of_step_self (M := core) (step_of_stopped h) n

/-- A program that does not fit leaves the core faulted, with its length in the record (R106). -/
theorem State.status_resetWith_of_oversized (cfg : Config) (t0 : Nat) {program : List Byte}
    (h : maxProgram < program.length) :
    (State.resetWith cfg program t0).status = .faulted ∧
      (State.resetWith cfg program t0).fault =
        some (faultRecord .programTooLarge none none none (some program.length)) := by
  simp [State.resetWith, Nat.not_le.2 h]

/-- Settles O16: reset raises the record itself, and a faulted core stays as it is (O11). -/
theorem oversizedProgramFaults : Obligations.OversizedProgramFaults := by
  intro cfg program t0 n h s
  obtain ⟨hstatus, hfault⟩ := State.status_resetWith_of_oversized cfg t0 h
  refine ⟨hstatus, hfault, stoppedCoreDoesNothing s n ?_⟩
  simp [s, hstatus]

/-! ### What a faulting step leaves (R107) -/

/-- The next state is what a raise from the instruction's rule makes: its record names the instruction's own address and
word (R98). -/
def State.RaisedBy (s : State) (i : Instr) (t : State) : Prop :=
  ∃ k a n, t = s.raise k (some s.instrAddr) (some (encode i)) a n

theorem State.raisedBy_raise (s : State) (i : Instr) (k : FaultKind) (a n : Option Nat) :
    s.RaisedBy i (s.raise k (some s.instrAddr) (some (encode i)) a n) := ⟨k, a, n, rfl⟩

section

variable {s t : State} {i : Instr}

/-- Past the fetch, a raise of the rule has changed `pc`, by the advance, and status and record (R107). -/
theorem State.RaisedBy.eq_of_advance (h : s.advance.RaisedBy i t) :
    ∃ r, t = { s with pc := s.pc + 2, status := .faulted, fault := some r } ∧
      r.ia = some s.pc ∧ r.word = some (encode i) := by
  obtain ⟨k, a, n, rfl⟩ := h
  rw [State.instrAddr_advance]
  exact ⟨_, rfl, rfl, rfl⟩

variable (hok : s.status ≠ .faulted) (ht : t.status = .faulted)

include hok ht

/-- A store does not fault. -/
theorem State.storeBytes_ne_some_of_faulted {a : Nat} {bs : List Byte} : s.storeBytes a bs ≠ some t := by
  intro h
  obtain ⟨_, rfl⟩ := State.storeBytes_eq_some.1 h
  exact hok ht

/-- A key skip that faults raises, before its sample (R95, R96). -/
theorem raisedBy_of_keySkip {wanted : Bool} {v : Byte} (h : keySkip i wanted v s = .next t) : s.RaisedBy i t := by
  obtain ⟨_, rfl⟩ | ⟨_, ⟨_, rfl⟩ | ⟨_, _, rfl⟩⟩ := keySkip_cases h
  · exact s.raisedBy_raise ..
  · exact s.raisedBy_raise ..
  · exact absurd ht (by simpa using hok)

/-- A rule that faults is one that raised: every other outcome keeps the status or halts. -/
theorem raisedBy_of_exec (h : exec i s = .next t) : s.RaisedBy i t := by
  cases i with
  | halt =>
    obtain ⟨_, rfl⟩ | ⟨_, rfl⟩ := execHalt_cases h
    · cases ht
    · exact s.raisedBy_raise ..
  | ret =>
    obtain ⟨_, rfl⟩ | ⟨_, ⟨_, rfl⟩ | ⟨_, rfl⟩⟩ := execRet_cases h
    · exact s.raisedBy_raise ..
    · exact absurd ht hok
    · exact absurd ht hok
  | callAddr nnn =>
    obtain ⟨_, rfl⟩ | ⟨_, rfl⟩ := execCallAddr_cases h
    · exact s.raisedBy_raise ..
    · exact absurd ht hok
  | drwVxVyNibble x y n =>
    obtain ⟨_, rfl⟩ | ⟨_, _, ⟨_, rfl⟩ | ⟨_, rfl⟩⟩ := execDrwVxVyNibble_cases h
    · exact s.raisedBy_raise ..
    · exact s.raisedBy_raise ..
    · exact absurd ht hok
  | ldFVx x =>
    obtain ⟨_, rfl⟩ | ⟨_, rfl⟩ := execLdFVx_cases h
    · exact s.raisedBy_raise ..
    · exact absurd ht hok
  | ldBVx x =>
    obtain ⟨_, rfl⟩ | hs := execLdBVx_cases h
    · exact s.raisedBy_raise ..
    · exact absurd hs (State.storeBytes_ne_some_of_faulted hok ht)
  | ldMemVx x =>
    obtain ⟨_, rfl⟩ | hs := execLdMemVx_cases h
    · exact s.raisedBy_raise ..
    · exact absurd hs (State.storeBytes_ne_some_of_faulted hok ht)
  | ldVxMem x =>
    obtain ⟨_, rfl⟩ | ⟨_, _, rfl⟩ := execLdVxMem_cases h
    · exact s.raisedBy_raise ..
    · exact absurd ht (by simpa using hok)
  | skpVx | sknpVx => exact raisedBy_of_keySkip hok ht h
  | rndVxByte x nn =>
    cases h
    exact absurd ht (by simpa [State.storeRandom] using hok)
  | _ =>
    -- the remaining rules have one outcome, an update that keeps the status
    cases h
    exact absurd ht (by simpa using hok)

end

/-- Settles O23: of the ways a step can go, the fetch fault raises before the advance, the unknown word and a rule that
faults (`raisedBy_of_exec`) after it, and the redraw event is only emitted by a core that still runs. -/
theorem faultingStepWritesNothing : Obligations.FaultingStepWritesNothing := by
  intro s t hrun h ht
  obtain ⟨hstop, _⟩ | ⟨_, hpc, rfl⟩ | ⟨_, hpc, w, hf, _, rfl⟩ | ⟨_, hpc, w, i, u, hf, hd, hu, rfl⟩ := step_cases h
  · exact absurd hrun hstop
  · exact .inl ⟨hpc, _, rfl, rfl, rfl, rfl⟩
  · exact .inr ⟨hpc, _, rfl, congrArg some s.instrAddr_advance, hf.symm⟩
  · split at ht
    next hgoes => exact absurd (hgoes.symm.trans ht) (by decide)
    next hends =>
      have hraised : s.advance.RaisedBy i u := raisedBy_of_exec (by simp [hrun]) ht hu
      obtain ⟨r, hr, hia, hword⟩ := hraised.eq_of_advance
      obtain ⟨hw, _⟩ := explains_of_decodeWord hd
      exact .inr ⟨hpc, r, (if_neg hends).trans hr, hia, by rw [hword, hw, hf]⟩

end Sys2Proof.Machine
end
